-- ==== Sys2Proof/Word.lean ====
section
/-! DEFINITION. Word.lean: the words, bytes and fields of DEMOD-CORE (R8 of 00_scope.md, R80 of 30_encoding.md)
and the pair of real numbers that a complex sample is (R12). -/

namespace Sys2Proof

/-- One word of the `CMD` and `RSP` streams (R46). -/
abbrev Word := BitVec 32

/-- One byte of the `IN` and `OUT` streams (R46). -/
abbrev Byte := BitVec 8

/-- `u24`: an immediate (R80), and the width of the integer registers (R27 to R30, R41). -/
abbrev U24 := BitVec 24

/-- A complex value: a pair `(re, im)` over the carrier `F` of the numeric domain (R12). -/
structure Cx (F : Type) where
  re : F
  im : F
deriving DecidableEq, Repr

end Sys2Proof
end

