-- ==== Sys2Proof/Config.lean ====
section
/-! DEFINITION. Config.lean: what an implementation of DEMOD-CORE fixes and the spec leaves open: the numeric
domain `NUM` with its laws, `NUM.W`, `NMAX` and `LMAX` (R6, R10, R11 of 00_scope.md). -/

namespace Sys2Proof

/-- The numeric domain `NUM` (R10 of 00_scope.md): the operations on a carrier `F`, all total.

`unset i` is the value that a read of word `i` of an internal memory
gives while that word holds none (V5: no rule reads such a word; free, log 7). -/
structure Num (F : Type) where
  ofInt : Int → F
  add : F → F → F
  sub : F → F → F
  mul : F → F → F
  div : F → F → F
  sin : F → F
  cos : F → F
  /-- `atan2 y x`, y first. -/
  atan2 : F → F → F
  pi : F
  twoPi : F
  wrap : F → F
  isZero : F → Bool
  isFinite : F → Bool
  /-- Nearest integer, ties away from zero. Of a value that is not finite: any integer (U6; log 4). -/
  roundInt : F → Int
  unset : Nat → F

/-- `NUM.W`, `enc` and `dec` (R6, R10): one `F` value takes `words` 32-bit words on the ports, so `NUM.W` is
`32 * words`, a positive multiple of 32. -/
structure Codec (F : Type) where
  words : Nat
  words_pos : 0 < words
  enc : F → BitVec (32 * words)
  dec : BitVec (32 * words) → F

/-- `val` says which real number each value stands for, as the ideal meanings of R10 speak of values. Laws (b) and (c) of R11
say of it that `ofInt` is exact and that `wrap` reaches the interval. (No step reads it: log 3.) -/
structure Num.Denotes {F : Type} (N : Num F) (val : F → ℝ) : Prop where
  /-- (b) -/
  ofInt_exact : ∀ z : Int, z.natAbs ≤ 2 ^ 24 → val (N.ofInt z) = z
  /-- (c) -/
  wrap_mem : ∀ a, N.isFinite a = true → -Real.pi < val (N.wrap a) ∧ val (N.wrap a) ≤ Real.pi

/-- The laws of R11 (00_scope.md), all that may be assumed of an open domain. Law (a) is that the operations are
functions. Law (f) is about the encoding and stands in `Params`. -/
structure Num.Laws {F : Type} (N : Num F) : Prop where
  /-- (b) and (c): the values stand for real numbers, integers up to 2^24 for themselves, wrapped values for numbers
  in (-pi, pi]. -/
  denotes : ∃ val : F → ℝ, N.Denotes val
  /-- (b), read as saying also that a small integer is a finite value (DEDUCED from "exact"; log 2). -/
  ofInt_finite : ∀ z : Int, z.natAbs ≤ 2 ^ 24 → N.isFinite (N.ofInt z) = true
  /-- (d) -/
  isZero_zero : N.isZero (N.ofInt 0) = true
  /-- (d) -/
  isZero_ofInt : ∀ z : Int, z ≠ 0 → N.isZero (N.ofInt z) = false
  /-- (e) -/
  roundInt_zero_mul : ∀ a, N.isFinite a = true → N.roundInt (N.mul (N.ofInt 0) a) = 0
  /-- (e) -/
  roundInt_ofInt : ∀ z : Int, z.natAbs ≤ 2 ^ 24 → N.roundInt (N.ofInt z) = z

/-- A value of the carrier the machine runs with: a name only. The carrier is open (R10, D2), so a value is known by
a number that nothing computes with; every countable carrier is such a set of names (log 1). -/
structure Value where
  code : Nat
deriving DecidableEq, Repr

/-- The parameters of an implementation, with the constraints of R6 and the laws of R11 (00_scope.md). -/
structure Params where
  nmax : Nat
  nmax_pos : 1 ≤ nmax
  nmax_le : nmax ≤ 2 ^ 24 - 1
  lmax : Nat
  lmax_pos : 1 ≤ lmax
  lmax_le : lmax ≤ 2 ^ 24 - 1
  num : Num Value
  codec : Codec Value
  laws : num.Laws
  /-- Law (f) of R11. -/
  dec_enc : ∀ a, num.isFinite a = true → codec.dec (codec.enc a) = a

namespace Config

/-- The integer that a name of `witness` stands for: even names for the non-negative ones, odd names for the others. -/
def witnessInt (a : Value) : Int := if a.code % 2 = 0 then (a.code / 2 : Nat) else -((a.code / 2 : Nat) : Int)

/-- The integers up to 3, which lie in (-pi, pi], are kept, every other value goes to 0. -/
def witnessWrap (a : Value) : Value := if (witnessInt a).natAbs ≤ 3 then a else ⟨0⟩

/-- The name of an integer in `witness`. -/
def witnessOfInt (z : Int) : Value := ⟨if 0 ≤ z then 2 * z.natAbs else 2 * z.natAbs + 1⟩

theorem witnessInt_ofInt (z : Int) : witnessInt (witnessOfInt z) = z := by
  unfold witnessInt witnessOfInt; dsimp only; split <;> split <;> omega

theorem witnessWrap_natAbs (a : Value) : (witnessInt (witnessWrap a)).natAbs ≤ 3 := by
  unfold witnessWrap; split
  · assumption
  · decide

/-- Some set of parameters: the evidence that the constraints and the laws can be met together, which Lean asks for
before it takes `paramsOf` as a constant. Nothing is ever said of the machine through these values. -/
def witness : Params where
  nmax := 1
  nmax_pos := by decide
  nmax_le := by decide
  lmax := 1
  lmax_pos := by decide
  lmax_le := by decide
  num :=
    { ofInt := witnessOfInt
      add := fun a _ => a
      sub := fun a _ => a
      mul := fun _ _ => ⟨0⟩
      div := fun a _ => a
      sin := id
      cos := id
      atan2 := fun a _ => a
      pi := ⟨0⟩
      twoPi := ⟨0⟩
      wrap := witnessWrap
      isZero := fun a => a.code == 0
      isFinite := fun a => decide (a.code < 2 ^ 26)
      roundInt := witnessInt
      unset := fun i => ⟨i⟩ }
  codec :=
    { words := 1
      words_pos := by decide
      enc := fun a => BitVec.ofNat _ a.code
      dec := fun b => ⟨b.toNat⟩ }
  laws :=
    { denotes := by
        refine ⟨fun a => (witnessInt a : ℝ), fun z _ => by simp only [witnessInt_ofInt], fun a _ => ?_⟩
        have h := witnessWrap_natAbs a
        have h1 : ((-3 : Int) : ℝ) ≤ (witnessInt (witnessWrap a) : ℝ) := Int.cast_le.2 (by omega)
        have h2 : (witnessInt (witnessWrap a) : ℝ) ≤ ((3 : Int) : ℝ) := Int.cast_le.2 (by omega)
        have := Real.pi_gt_three
        push_cast at h1 h2
        exact ⟨by dsimp only; linarith, by dsimp only; linarith⟩
      ofInt_finite := by intro z h; apply decide_eq_true; dsimp only [witnessOfInt]; split <;> omega
      isZero_zero := rfl
      isZero_ofInt := by intro z h; simp [witnessOfInt]; split <;> omega
      roundInt_zero_mul := fun _ _ => by simp [witnessInt]
      roundInt_ofInt := fun z _ => witnessInt_ofInt z }
  dec_enc := by
    intro a h
    have h' : a.code < 2 ^ 26 := by simpa using h
    have : a.code % 2 ^ (32 * 1) = a.code := by omega
    cases a; simpa using this

/-- The implementation's parameters, given that there is a set of them. NO BODY: nothing in Lean can evaluate it or
prove a value of it, so what is proved holds for every set of parameters that meets R6 and R11 (log 1). -/
opaque paramsOf [Inhabited Params] : Params

/-- `NUM`, `NUM.W`, `NMAX` and `LMAX` of this machine. -/
def params : Params := @paramsOf ⟨witness⟩

/-- `NUM`. -/
def num : Num Value := params.num

/-- `NMAX`: the capacity of the phase table and of one batch. -/
def nmax : Nat := params.nmax

/-- `LMAX`: the capacity of the coefficient memory and of the delay line. -/
def lmax : Nat := params.lmax

/-- How many 32-bit words one `F` value takes: `NUM.W / 32`. -/
def numWords : Nat := params.codec.words

/-- `NUM.W`. -/
def numW : Nat := 32 * numWords

/-- `enc`. -/
def enc (a : Value) : BitVec numW := params.codec.enc a

/-- `dec`. -/
def dec (b : BitVec numW) : Value := params.codec.dec b

end Config

end Sys2Proof
end

