-- ==== Sys2Proof/Syntax.lean ====
section
/-! DEFINITION. Syntax.lean: the thirteen commands (R84 of 30_encoding.md), one constructor each. -/

namespace Sys2Proof

/-- The quantizer's overflow policy (R31, R151): the operand of `SETQPOL` and the contents of `QPOL`. -/
inductive QPolicy
  | wrap
  | sat
deriving DecidableEq, Repr

/-- One `F` operand as it stands on `CMD`: `NUM.W` bits (R81, R83). The meaning of the command reads it with `dec`. -/
abbrev FBits := BitVec Config.numW

/-- The commands of DEMOD-CORE (R84), with their operands (R82). -/
inductive Instr
  /-- `NOP`, R160. -/
  | nop
  /-- `RST`, R161. -/
  | rst
  /-- `START`, R162. -/
  | start
  /-- `BATCH n`, R163. -/
  | batch (n : U24)
  /-- `STOP`, R165. -/
  | stop
  /-- `RD idx`, R166. -/
  | rd (idx : BitVec 8)
  /-- `SETSHIFT r`, R101. -/
  | setshift (r : FBits)
  /-- `SETN N`, R102. -/
  | setn (n : U24)
  /-- `SETM M`, R121. -/
  | setm (m : U24)
  /-- `SETDPH p`, R122. -/
  | setdph (p : U24)
  /-- `LDTAPS h[0], .. h[L-1]`, R123. -/
  | ldtaps (h : List FBits)
  /-- `SETGAIN g`, R141. -/
  | setgain (g : FBits)
  /-- `SETQPOL p`, R151. -/
  | setqpol (p : QPolicy)
deriving DecidableEq, Repr

/-- Which command: an `Instr` without its operands. -/
inductive Op
  | nop | rst | start | batch | stop | rd | setshift | setn | setm | setdph | ldtaps | setgain | setqpol
deriving DecidableEq, Repr

end Sys2Proof
end

