-- ==== Sys2Proof/WellFormed.lean ====
section
/-! DEFINITION. WellFormed.lean: which terms of `Instr` are commands that can be written down (R80, R82). -/

namespace Sys2Proof

/-- A command that has a head word. The only operand that the types do not bound is the number of coefficients of
`LDTAPS`, which is the 24-bit immediate (R82). -/
def Instr.wf : Instr → Bool
  | .nop => true
  | .rst => true
  | .start => true
  | .batch _ => true
  | .stop => true
  | .rd _ => true
  | .setshift _ => true
  | .setn _ => true
  | .setm _ => true
  | .setdph _ => true
  | .ldtaps h => decide (h.length < 2 ^ 24)
  | .setgain _ => true
  | .setqpol _ => true

end Sys2Proof
end

