-- ==== Sys2Proof/Decode.lean ====
section
/-! DEFINITION. Decode.lean: the command decoder and its encoder (30_encoding.md, R80 to R87), and the opcode
table's own numbering of a command's bits. -/

namespace Sys2Proof

/-! ## The opcode map (R84) -/

/-- One row of the opcode map: a head word `w` spells the command when `w &&& mask = pattern`. -/
structure OpcodeRow where
  op : Op
  pattern : Word
  mask : Word
deriving DecidableEq, Repr

/-- The opcode map of R84, row by row. -/
def opcodeTable : List OpcodeRow :=
  [ ⟨.nop,      0x00000000#32, 0xFFFFFFFF#32⟩,
    ⟨.rst,      0x01000000#32, 0xFFFFFFFF#32⟩,
    ⟨.start,    0x02000000#32, 0xFFFFFFFF#32⟩,
    ⟨.batch,    0x03000000#32, 0xFF000000#32⟩,
    ⟨.stop,     0x04000000#32, 0xFFFFFFFF#32⟩,
    ⟨.rd,       0x05000000#32, 0xFFFFFF00#32⟩,
    ⟨.setshift, 0x10000000#32, 0xFFFFFFFF#32⟩,
    ⟨.setn,     0x11000000#32, 0xFF000000#32⟩,
    ⟨.setm,     0x20000000#32, 0xFF000000#32⟩,
    ⟨.setdph,   0x21000000#32, 0xFF000000#32⟩,
    ⟨.ldtaps,   0x22000000#32, 0xFF000000#32⟩,
    ⟨.setgain,  0x30000000#32, 0xFFFFFFFF#32⟩,
    ⟨.setqpol,  0x40000000#32, 0xFFFFFFFE#32⟩ ]

/-! ## Head words (R80) -/

/-- A head word that spells a command: which one, and its immediate, bits 23:0. -/
structure Head where
  op : Op
  imm : U24
deriving DecidableEq, Repr

/-- Step 3 of the decoder (R87): the row of R84 that the head word matches; none for an illegal word (R85). -/
def decodeHead (w : Word) : Option Head :=
  (opcodeTable.find? fun r => w &&& r.mask == r.pattern).map fun r => ⟨r.op, w.extractLsb' 0 24⟩

/-- How many operand words follow the head word (R84, R86). -/
def Head.operandWords (h : Head) : Nat :=
  match h.op with
  | .setshift => Config.numWords
  | .setgain => Config.numWords
  | .ldtaps => Config.numWords * h.imm.toNat
  | .nop | .rst | .start | .batch | .stop | .rd | .setn | .setm | .setdph | .setqpol => 0

/-! ## `F` operands (R83) -/

/-- Words in arrival order as one number, the first word least significant. -/
def joinWords : List Word → Nat
  | [] => 0
  | w :: ws => w.toNat + 2 ^ 32 * joinWords ws

/-- `w(k-1) ++ .. ++ w1 ++ w0` (R83). -/
def joinOperand (ws : List Word) : FBits :=
  BitVec.ofNat Config.numW (joinWords ws)

/-- The words of one `F` value, least significant word first (R83, R166). -/
def splitOperand (b : FBits) : List Word :=
  (List.range Config.numWords).map fun i => b.extractLsb' (32 * i) 32

/-- The first `n` operands of a list of operand words, in order (R81). -/
def takeOperands : Nat → List Word → List FBits
  | 0, _ => []
  | n + 1, ws => joinOperand (ws.take Config.numWords) :: takeOperands n (ws.drop Config.numWords)

/-! ## The decoder -/

/-- The command of a head word and its operand words (R82, step 6 of R87). -/
def Head.assemble (h : Head) (ws : List Word) : Instr :=
  match h.op with
  | .nop => .nop
  | .rst => .rst
  | .start => .start
  | .batch => .batch h.imm
  | .stop => .stop
  | .rd => .rd (h.imm.extractLsb' 0 8)
  | .setshift => .setshift (joinOperand (ws.take Config.numWords))
  | .setn => .setn h.imm
  | .setm => .setm h.imm
  | .setdph => .setdph h.imm
  | .ldtaps => .ldtaps (takeOperands h.imm.toNat ws)
  | .setgain => .setgain (joinOperand (ws.take Config.numWords))
  | .setqpol => .setqpol (if h.imm.getLsbD 0 then .sat else .wrap)

/-- Why a list of words gives no command. -/
inductive Reject
  /-- There is no head word. -/
  | noWord
  /-- The head word matches no row of the opcode map (R85). -/
  | illegal (w : Word)
  /-- The head word `w` spells a command whose operand words are not all there. -/
  | missingOperands (h : Head)
deriving DecidableEq, Repr

/-- The command at the head of a list of words, and the words behind it. -/
def decode : List Word → Except Reject (Instr × List Word)
  | [] => .error .noWord
  | w :: rest =>
    match decodeHead w with
    | none => .error (.illegal w)
    | some h =>
      if rest.length < h.operandWords then .error (.missingOperands h)
      else .ok (h.assemble (rest.take h.operandWords), rest.drop h.operandWords)

/-! ## The encoder, from the same tables -/

/-- Which command a term is. -/
def Instr.op : Instr → Op
  | .nop => .nop
  | .rst => .rst
  | .start => .start
  | .batch _ => .batch
  | .stop => .stop
  | .rd _ => .rd
  | .setshift _ => .setshift
  | .setn _ => .setn
  | .setm _ => .setm
  | .setdph _ => .setdph
  | .ldtaps _ => .ldtaps
  | .setgain _ => .setgain
  | .setqpol _ => .setqpol

/-- The opcode, bits 31:24 of the head word (R84). -/
def Op.code : Op → BitVec 8
  | .nop => 0x00#8
  | .rst => 0x01#8
  | .start => 0x02#8
  | .batch => 0x03#8
  | .stop => 0x04#8
  | .rd => 0x05#8
  | .setshift => 0x10#8
  | .setn => 0x11#8
  | .setm => 0x20#8
  | .setdph => 0x21#8
  | .ldtaps => 0x22#8
  | .setgain => 0x30#8
  | .setqpol => 0x40#8

/-- The immediate, bits 23:0 of the head word (R82). -/
def Instr.imm : Instr → U24
  | .nop => 0
  | .rst => 0
  | .start => 0
  | .batch n => n
  | .stop => 0
  | .rd idx => idx.setWidth 24
  | .setshift _ => 0
  | .setn n => n
  | .setm m => m
  | .setdph p => p
  | .ldtaps h => BitVec.ofNat 24 h.length
  | .setgain _ => 0
  | .setqpol p => match p with | .wrap => 0 | .sat => 1

/-- The head word with the given opcode and immediate (R80). -/
def headWord (c : BitVec 8) (imm : U24) : Word := c ++ imm

/-- The head word of a decoded head. -/
def Head.word (h : Head) : Word := headWord h.op.code h.imm

/-- The head word of a command (R80). -/
def Instr.head (i : Instr) : Word := headWord i.op.code i.imm

/-- The operand words of a command, in the order in which they are sent (R81, R83). -/
def Instr.operands : Instr → List Word
  | .setshift r => splitOperand r
  | .setgain g => splitOperand g
  | .ldtaps h => h.flatMap splitOperand
  | .nop | .rst | .start | .batch _ | .stop | .rd _ | .setn _ | .setm _ | .setdph _ | .setqpol _ => []

/-- The words of a command: its head word, then its operand words. -/
def encode (i : Instr) : List Word := i.head :: i.operands

/-- A command's length in words (R86). -/
def Instr.length (i : Instr) : Nat :=
  match i with
  | .setshift _ => 1 + Config.numWords
  | .setgain _ => 1 + Config.numWords
  | .ldtaps h => 1 + Config.numWords * h.length
  | .nop | .rst | .start | .batch _ | .stop | .rd _ | .setn _ | .setm _ | .setdph _ | .setqpol _ => 1

/-! ## The opcode table's numbering -/

/-- Word `k` of a command whose `nbits` bits are `w`, bit 0 the least significant bit of the first word, every higher
bit 0. -/
def tableWord (nbits w k : Nat) : Word := BitVec.ofNat 32 ((w % 2 ^ nbits) >>> (32 * k))

/-- Words 1 to `n` of that command: its operand words. -/
def tableOperands (nbits w n : Nat) : List Word :=
  (List.range n).map fun k => tableWord nbits w (k + 1)

/-- That command laid out as `CMD` carries it: the head word and as many operand words as it asks for. -/
def tableLayout (nbits w : Nat) : List Word :=
  tableWord nbits w 0 ::
    match decodeHead (tableWord nbits w 0) with
    | none => []
    | some h => tableOperands nbits w h.operandWords

/-- What the decoder reads from those words. It is `decode` of `tableLayout` (`decodeTableWord_eq_decode` in
Laws/Decode.lean), written without the test whether the operand words are all there: they are. -/
def decodeTableWord (nbits w : Nat) : Option Instr :=
  (decodeHead (tableWord nbits w 0)).map fun h => h.assemble (tableOperands nbits w h.operandWords)

end Sys2Proof
end

