-- ==== Sys2Proof/Machine/State.lean ====
section
/-! DEFINITION. Machine/State.lean: the whole architectural state of DEMOD-CORE (R20 of 10_state.md), its value after
power-on reset (R47), and the reasons a step could stop. The units' state is written over any carrier `F`, so that
what a unit does can be read at the machine's own domain and at the exact reals (R10). -/

namespace Sys2Proof.Machine

/-- `STATE` (R23): the operating state. The value 3 of its two bits is never held. -/
inductive OpState
  | idle
  | run
  | error
deriving DecidableEq, Repr

/-- What `CAUSE` can hold (R25, R180). Codes 3 and 4 are diagnostics and never stand in `CAUSE`; codes 8 to 255 are
never produced (V4). -/
inductive Cause
  /-- 0: no fault since reset. -/
  | noFault
  /-- 1 -/
  | configError
  /-- 2 -/
  | filterError
  /-- 5 -/
  | illegalCommand
  /-- 6 -/
  | badState
  /-- 7 -/
  | badOperand
deriving DecidableEq, Repr

/-- State of the MIX unit (R100). A word memory is the list of the values of its words that hold one: word `i` holds
`l[i]`, and a word at index `l.length` or above holds no value (R45). -/
structure MixUnit (F : Type) where
  /-- `SHIFT_RATE` (R34). -/
  shiftRate : F
  /-- `PHASE_INC` (R35). -/
  phaseInc : F
  /-- `PHASE` (R36). -/
  phase : F
  /-- `SHIFT_EN` (R32). -/
  shiftEn : Bool
  /-- `BATCH_N` (R27). -/
  batchN : U24
  /-- `DSIN` (R45). -/
  dsin : List F
  /-- `DCOS` (R45). -/
  dcos : List F
deriving DecidableEq, Repr

/-- State of the DEC unit (R120). -/
structure DecUnit (F : Type) where
  /-- `DECIM_M` (R28). -/
  decimM : U24
  /-- `NTAPS` (R29). -/
  ntaps : U24
  /-- `DPH` (R30). -/
  dph : U24
  /-- `SCALE` (R38). -/
  scale : F
  /-- `DEC_EN` (R32). -/
  decEn : Bool
  /-- `DCNT` (R41). -/
  dcnt : U24
  /-- `YH` (R42). -/
  yh : Cx F
  /-- `COEF` (R43). -/
  coef : List F
  /-- `DLY`, newest sample first (R44). -/
  dly : List (Cx F)
deriving DecidableEq, Repr

/-- State of the DSC unit (R140). -/
structure DscUnit (F : Type) where
  /-- `GAIN` (R37). -/
  gain : F
  /-- `PREV`, the pair `PREV_RE`, `PREV_IM` (R39). -/
  prev : Cx F
  /-- `HAVE_PREV` (R40). -/
  havePrev : Bool
deriving DecidableEq, Repr

/-- State of the QNT unit (R150). -/
structure QntUnit where
  /-- `QPOL` (R31). -/
  qpol : QPolicy
deriving DecidableEq, Repr

/-- The four functional units (R2), in the order in which a batch runs through them. -/
structure Pipeline (F : Type) where
  mix : MixUnit F
  dec : DecUnit F
  dsc : DscUnit F
  qnt : QntUnit
deriving DecidableEq, Repr

/-- Everything of the state that is no stream (R20): the four units, the control registers and the diagnostic flags. -/
structure Registers (F : Type) extends Pipeline F where
  /-- `STATE` (R23). -/
  opState : OpState
  /-- `CAUSE` (R25). -/
  cause : Cause
  /-- `INFO` (R26). -/
  info : Word
  /-- `SHORT` (R33). -/
  short : Bool
  /-- `EOS` (R33). -/
  eos : Bool
  /-- `RESID` (R33). -/
  resid : Bool
deriving DecidableEq, Repr

/-- The whole state (R20): the registers, the memories and the flags at the machine's own domain, and the four streams,
each a list with its head first (R61). -/
structure State extends Registers Value where
  /-- `CMD` (R46): words the host has sent and the block has not taken. -/
  cmd : List Word
  /-- `IN` (R46): bytes the host has pushed and the block has not taken. -/
  inp : List Byte
  /-- `OUT` (R46): bytes the block has produced and the host has not taken. -/
  out : List Byte
  /-- `RSP` (R46): words the block has produced and the host has not taken. -/
  rsp : List Word
deriving DecidableEq, Repr

/-- The complex pair (0, 0). -/
def cxZero {F : Type} (N : Num F) : Cx F := ⟨N.ofInt 0, N.ofInt 0⟩

/-- The units after reset (R47): every register at its reset value, no memory word holding a value. -/
def Pipeline.reset {F : Type} (N : Num F) : Pipeline F where
  mix :=
    { shiftRate := N.ofInt 0
      phaseInc := N.ofInt 0
      phase := N.ofInt 0
      shiftEn := false
      batchN := 0
      dsin := []
      dcos := [] }
  dec :=
    { decimM := 1
      ntaps := 0
      dph := 0
      scale := N.ofInt 1
      decEn := false
      dcnt := 0
      yh := cxZero N
      coef := []
      dly := [] }
  dsc :=
    { gain := N.div (N.ofInt 1) (N.ofInt 2)
      prev := cxZero N
      havePrev := false }
  qnt := { qpol := .wrap }

/-- The registers after reset (R47): the units', IDLE, no fault recorded, no flag set. -/
def Registers.reset {F : Type} (N : Num F) : Registers F where
  toPipeline := Pipeline.reset N
  opState := .idle
  cause := .noFault
  info := 0
  short := false
  eos := false
  resid := false

/-- The machine right after power-on reset (R47, R200): every value is the spec's. -/
def State.reset : State where
  toRegisters := Registers.reset Config.num
  cmd := []
  inp := []
  out := []
  rsp := []

/-- Reasons for which the machine stops with a fault: NONE. A fault of this hardware is a state it goes on from
(fault entry, R183; state ERROR keeps taking words, R186), a command that cannot go on holds (R73), and the block
never halts (R215), so nobody raises anything here and no step ends in one (log 9). -/
inductive Fault
deriving DecidableEq, Repr

/-- Reasons for which the model gives no meaning. -/
inductive Refusal
  /-- Raised by an arm of `exec` whose command has no meaning yet; safe (nothing is claimed of such a step). No arm
  raises it: every command has its meaning. -/
  | notModelled (mnemonic : String)
deriving DecidableEq, Repr

/-- What a step of this machine answers. -/
abbrev Result := Host.Outcome State Fault Refusal

end Sys2Proof.Machine
end

