-- ==== Sys2Proof/Machine/Ops.lean ====
section
/-! DEFINITION. Machine/Ops.lean: complex arithmetic (R12), reads of the word memories, the stream primitives (R9, R61),
fault entry (R183) and the way back from it (R187, R161), and which state admits which command (R182). -/

namespace Sys2Proof.Machine

section Arithmetic

variable {F : Type} (N : Num F)

/-- `(a + jb)(c + jd)`, componentwise in the written order (R12). -/
def cmul (x y : Cx F) : Cx F :=
  ⟨N.sub (N.mul x.re y.re) (N.mul x.im y.im), N.add (N.mul x.re y.im) (N.mul x.im y.re)⟩

/-- `(a + jb)` times the conjugate of `(c + jd)` (R12). -/
def cmulc (x y : Cx F) : Cx F :=
  ⟨N.add (N.mul x.re y.re) (N.mul x.im y.im), N.sub (N.mul x.im y.re) (N.mul x.re y.im)⟩

/-- A real times a complex (R12). -/
def cscale (k : F) (x : Cx F) : Cx F := ⟨N.mul k x.re, N.mul k x.im⟩

/-- Complex sum (R12). -/
def cadd (x y : Cx F) : Cx F := ⟨N.add x.re y.re, N.add x.im y.im⟩

/-- The angle of a complex value; of the zero pair, 0 (R12). -/
def angle (x : Cx F) : F :=
  if N.isZero x.re && N.isZero x.im then N.ofInt 0 else N.atan2 x.im x.re

/-- Word `i` of a memory of `F` values; of a word that holds no value, a free value (V5, log 7). -/
def readWord (mem : List F) (i : Nat) : F := mem[i]?.getD (N.unset i)

/-- Word `i` of a memory of complex pairs; of a word that holds no value, a free pair (V5, log 7). -/
def readPair (mem : List (Cx F)) (i : Nat) : Cx F := mem[i]?.getD ⟨N.unset i, N.unset i⟩

end Arithmetic

/-! ## Streams (R9, R61) -/

/-- The first `n` words of `CMD` are taken. -/
def State.popCmd (n : Nat) (s : State) : State := { s with cmd := s.cmd.drop n }

/-- `InAvail()`. -/
def State.inAvail (s : State) : Nat := s.inp.length

/-- The bytes that `InPop(n)` returns. -/
def State.inFront (n : Nat) (s : State) : List Byte := s.inp.take n

/-- What `InPop(n)` leaves. -/
def State.inPop (n : Nat) (s : State) : State := { s with inp := s.inp.drop n }

/-- `OutPush(bytes)`. -/
def State.outPush (bs : List Byte) (s : State) : State := { s with out := s.out ++ bs }

/-- `RspPush(words)`. -/
def State.rspPush (ws : List Word) (s : State) : State := { s with rsp := s.rsp ++ ws }

/-! ## Taking a fault, and the way back -/

/-- The cause codes (R180). -/
def Cause.code : Cause → BitVec 8
  | .noFault => 0
  | .configError => 1
  | .filterError => 2
  | .illegalCommand => 5
  | .badState => 6
  | .badOperand => 7

/-- What fault entry writes (R183): `CAUSE`, `INFO` and `STATE`, and nothing else. -/
def Registers.fault {F : Type} (c : Cause) (w : Word) (u : Registers F) : Registers F :=
  { u with cause := c, info := w, opState := .error }

/-- Fault entry, `raise <Cause>(w)` (R183). The head word `w` is the one word that the decoder has taken from `CMD` by
then (R185). -/
def raise (c : Cause) (w : Word) (s : State) : State :=
  { s.popCmd 1 with toRegisters := s.toRegisters.fault c w }

/-- The effect of `RST` (R161), the only command that leaves ERROR (R187): every register at its reset value, no memory
word holding a value, `IN` emptied, and `CMD`, `OUT`, `RSP` left as they are. -/
def State.commandReset (s : State) : State :=
  { State.reset with cmd := s.cmd, out := s.out, rsp := s.rsp }

/-! ## Which state admits which command (R182) -/

/-- The three entries of the table of R182: executed, `BadState`, or dropped without effect. -/
inductive Admission
  | ok
  | badState
  | dropped
deriving DecidableEq, Repr

/-- The table of R182, row by row. (`RD` of an undefined index in ERROR is dropped by the meaning of `RD`.) -/
def admission (st : OpState) (op : Op) : Admission :=
  match op, st with
  | .nop, _ => .ok
  | .rst, _ => .ok
  | .rd, _ => .ok
  | .start, .idle => .ok
  | .start, .run => .badState
  | .start, .error => .dropped
  | .batch, .idle => .badState
  | .batch, .run => .ok
  | .batch, .error => .dropped
  | .stop, .idle => .badState
  | .stop, .run => .ok
  | .stop, .error => .dropped
  | .setshift, .idle | .setn, .idle | .setm, .idle | .setdph, .idle | .ldtaps, .idle | .setgain, .idle
  | .setqpol, .idle => .ok
  | .setshift, .run | .setn, .run | .setm, .run | .setdph, .run | .ldtaps, .run | .setgain, .run
  | .setqpol, .run => .badState
  | .setshift, .error | .setn, .error | .setm, .error | .setdph, .error | .ldtaps, .error | .setgain, .error
  | .setqpol, .error => .dropped

/-- The seven configuration commands: the ones that write what the units execute from (R71). -/
def Op.configures : Op → Bool
  | .setshift | .setn | .setm | .setdph | .ldtaps | .setgain | .setqpol => true
  | .nop | .rst | .start | .batch | .stop | .rd => false

/-- Steps 2 and 4 of the decoder (R87) for a command with head word `w`: it goes on to `body`, or faults, or its head word
is dropped (R186: no operand word is consumed). -/
def gated (op : Op) (w : Word) (s : State) (body : State → Result) : Result :=
  match admission s.opState op with
  | .ok => body s
  | .badState => .next (raise .badState w s)
  | .dropped => .next (s.popCmd 1)

end Sys2Proof.Machine
end

