-- ==== Sys2Proof/Machine/Flags.lean ====
section
/-! DEFINITION. Machine/Flags.lean: the diagnostic flags (R33) and the `STATUS` view (R24 of 10_state.md). -/

namespace Sys2Proof.Machine

/-- The two bits of `STATE` (R23). -/
def OpState.bits : OpState → BitVec 2
  | .idle => 0
  | .run => 1
  | .error => 2

/-- The bit of `QPOL` (R31). -/
def qpolBit : QPolicy → Bool
  | .wrap => false
  | .sat => true

/-- `STATUS` (R24), assembled from the other state: `RESID`, `EOS`, `SHORT`, `QPOL`, `HAVE_PREV`, `DEC_EN`, `SHIFT_EN`
in bits 8 to 2, `STATE` in bits 1:0, zeros above. -/
def statusWord {F : Type} (s : Registers F) : Word :=
  (0#23 ++ BitVec.ofBool s.resid ++ BitVec.ofBool s.eos ++ BitVec.ofBool s.short ++ BitVec.ofBool (qpolBit s.qnt.qpol)
    ++ BitVec.ofBool s.dsc.havePrev ++ BitVec.ofBool s.dec.decEn ++ BitVec.ofBool s.mix.shiftEn ++ s.opState.bits : BitVec 32)

/-- `SHORT`, `EOS` and `RESID` are cleared by `START` (R33, R162). -/
def State.clearFlags (s : State) : State := { s with short := false, eos := false, resid := false }

/-- `BATCH n` sets `SHORT` when `n < BATCH_N` and never clears it (R33, R163). -/
def State.markShort (n : U24) (s : State) : State :=
  { s with short := s.short || decide (n.toNat < s.mix.batchN.toNat) }

/-- `STOP` sets `EOS`, and `RESID` when it discarded `r > 0` bytes; it clears neither (R33, R165). -/
def State.markEnd (r : Nat) (s : State) : State :=
  { s with eos := true, resid := s.resid || decide (0 < r) }

end Sys2Proof.Machine
end

