-- ==== Sys2Proof/Machine/Operands.lean ====
section
/-! DEFINITION. Machine/Operands.lean: the operand forms: `F` operands (R83), the register index of `RD` and the read map
(R50), samples on `IN` and `OUT` (R63, R64). -/

namespace Sys2Proof.Machine

/-- An `F` operand as a value (R83). -/
def operandValue (b : FBits) : Value := Config.dec b

/-- The words of an `F` value, least significant word first (R83, R166). -/
def valueWords (a : Value) : List Word := splitOperand (Config.enc a)

/-! ## The read map of `RD` (R50) -/

/-- The registers that `RD` can read. -/
inductive Reg
  | status | cause | info | batchN | decimM | ntaps | dph | dcnt
  | shiftRate | phaseInc | phase | gain | scale | prevRe | prevIm
deriving DecidableEq, Repr

/-- The index of a register in the read map (R50). -/
def Reg.index : Reg → BitVec 8
  | .status => 0x00
  | .cause => 0x01
  | .info => 0x02
  | .batchN => 0x03
  | .decimM => 0x04
  | .ntaps => 0x05
  | .dph => 0x06
  | .dcnt => 0x07
  | .shiftRate => 0x10
  | .phaseInc => 0x11
  | .phase => 0x12
  | .gain => 0x13
  | .scale => 0x14
  | .prevRe => 0x15
  | .prevIm => 0x16

/-- The rows of the read map. -/
def Reg.all : List Reg :=
  [.status, .cause, .info, .batchN, .decimM, .ntaps, .dph, .dcnt,
   .shiftRate, .phaseInc, .phase, .gain, .scale, .prevRe, .prevIm]

/-- The register with the given index; none for an index that R50 does not list (V3). -/
def regAt (idx : BitVec 8) : Option Reg := Reg.all.find? fun r => r.index == idx

/-- What a read of a register returns: a word, or a value of the domain. -/
inductive Response (F : Type)
  | word (w : Word)
  | value (v : F)
deriving DecidableEq, Repr

/-- What `RD` of a register returns, in any domain: an integer register zero-extended to a word, a real-valued one as the value
itself (R50, R166; at NUM_R, which has no encoding, this is the whole answer). -/
def Reg.read {F : Type} (r : Reg) (u : Registers F) : Response F :=
  match r with
  | .status => .word (statusWord u)
  | .cause => .word (u.cause.code.setWidth 32)
  | .info => .word u.info
  | .batchN => .word (u.mix.batchN.setWidth 32)
  | .decimM => .word (u.dec.decimM.setWidth 32)
  | .ntaps => .word (u.dec.ntaps.setWidth 32)
  | .dph => .word (u.dec.dph.setWidth 32)
  | .dcnt => .word (u.dec.dcnt.setWidth 32)
  | .shiftRate => .value u.mix.shiftRate
  | .phaseInc => .value u.mix.phaseInc
  | .phase => .value u.mix.phase
  | .gain => .value u.dsc.gain
  | .scale => .value u.dec.scale
  | .prevRe => .value u.dsc.prev.re
  | .prevIm => .value u.dsc.prev.im

/-- The words that carry a response on `RSP`: the word, or the words of `enc` of the value (R166). -/
def Response.words : Response Value → List Word
  | .word w => [w]
  | .value v => valueWords v

/-- What `RD` of a register pushes on `RSP` (R50, R166). -/
def Reg.words (r : Reg) (s : State) : List Word := (r.read s.toRegisters).words

/-! ## Samples (20_memory.md) -/

/-- `Unpack` (R63): four bytes b0 b1 b2 b3 are the sample `I = sext(b1 ++ b0)`, `Q = sext(b3 ++ b2)`. Bytes that make no
whole sample give none. -/
def unpack : List Byte → List (Int × Int)
  | b0 :: b1 :: b2 :: b3 :: rest => ((b1 ++ b0).toInt, (b3 ++ b2).toInt) :: unpack rest
  | _ => []

/-- `Pack` (R64): each value's 16-bit two's-complement pattern, low byte first. -/
def pack (qs : List Int) : List Byte :=
  qs.flatMap fun q => [(BitVec.ofInt 16 q).extractLsb' 0 8, (BitVec.ofInt 16 q).extractLsb' 8 8]

end Sys2Proof.Machine
end

