-- ==== Sys2Proof/Machine/Decimator.lean ====
section
/-! DEFINITION. Machine/Decimator.lean: the decimating FIR unit DEC and its commands `SETM`, `SETDPH`, `LDTAPS`
(42_decimator.md). -/

namespace Sys2Proof.Machine

section Unit

variable {F : Type} (N : Num F)

/-- The delay line after `x` is taken (the loop of R126): the words in use move up by one and `DLY[0]` is `x`; words at
`n = NTAPS` and above are not touched. (With `n = 0`, which no open stream has, only `DLY[0]` is written.) (log 8) -/
def shiftIn (n : Nat) (x : Cx F) (dly : List (Cx F)) : List (Cx F) :=
  x :: (dly.take (n - 1) ++ dly.drop (max n 1))

/-- The sum of R126 over the first `n` taps: from `k = 0` upward, starting from zero, one addition per tap. -/
def firSum (coef : List F) (dly : List (Cx F)) (n : Nat) : Cx F :=
  (List.range n).foldl (fun acc k => cadd N acc (cscale N (readWord N coef k) (readPair N dly k))) (cxZero N)

/-- The sample at position `DPH` of a group has arrived (R126): the group's output is computed. -/
def DecUnit.hold (u : DecUnit F) (dly : List (Cx F)) : Cx F :=
  if u.dcnt = u.dph then cscale N u.scale (firSum N u.coef dly u.ntaps.toNat) else u.yh

/-- `DecPush(x)` (R126): the unit after one sample, and the value emitted if this sample ends its group. -/
def DecUnit.push (u : DecUnit F) (x : Cx F) : DecUnit F × Option (Cx F) :=
  let dly := shiftIn u.ntaps.toNat x u.dly
  let yh := u.hold N dly
  if u.dcnt.toNat + 1 = u.decimM.toNat then ({ u with dly := dly, yh := yh, dcnt := 0 }, some yh)
  else ({ u with dly := dly, yh := yh, dcnt := u.dcnt + 1 }, none)

/-- The samples of a batch fed to `DecPush` in order, and the values emitted, in order (R126). -/
def DecUnit.pushAll (u : DecUnit F) : List (Cx F) → DecUnit F × List (Cx F)
  | [] => (u, [])
  | x :: xs =>
    let r := (u.push N x).1.pushAll xs
    (r.1, (u.push N x).2.toList ++ r.2)

/-- The DEC unit on one batch (R126, R127). -/
def DecUnit.run (u : DecUnit F) (a : List (Cx F)) : DecUnit F × List (Cx F) :=
  if u.decEn then u.pushAll N a else (u, a)

/-- Initialization by `START`, once `DEC_EN` is latched (R125). -/
def DecUnit.init (u : DecUnit F) : DecUnit F :=
  if u.decEn then
    { u with
      scale := N.div (N.ofInt 1) (N.ofInt u.decimM.toNat)
      dly := List.replicate u.ntaps.toNat (cxZero N) ++ u.dly.drop u.ntaps.toNat
      dcnt := 0
      yh := cxZero N }
  else { u with dcnt := 0, yh := cxZero N }

end Unit

/-- `SETM M` (R121). -/
def execSetm (m : U24) (s : State) : Result :=
  gated .setm (Instr.setm m).head s fun s =>
    .next { s.popCmd (Instr.setm m).length with dec := { s.dec with decimM := m } }

/-- `SETDPH p` (R122). -/
def execSetdph (p : U24) (s : State) : Result :=
  gated .setdph (Instr.setdph p).head s fun s =>
    .next { s.popCmd (Instr.setdph p).length with dec := { s.dec with dph := p } }

/-- The operand check of `LDTAPS` (R123), made before any operand word is taken. -/
def tooManyTaps (l : Nat) : Bool := decide (Config.lmax < l)

/-- `LDTAPS h[0], .. h[L-1]` (R123): words of `COEF` at index `L` and above hold no value afterwards. -/
def execLdtaps (h : List FBits) (s : State) : Result :=
  gated .ldtaps (Instr.ldtaps h).head s fun s =>
    if tooManyTaps h.length then .next (raise .badOperand (Instr.ldtaps h).head s)
    else
      .next { s.popCmd (Instr.ldtaps h).length with
        dec := { s.dec with coef := h.map operandValue, ntaps := BitVec.ofNat 24 h.length } }

end Sys2Proof.Machine
end

