-- ==== Sys2Proof/Machine/Discriminator.lean ====
section
/-! DEFINITION. Machine/Discriminator.lean: the FM discriminator unit DSC and its command `SETGAIN` (43_discriminator.md). -/

namespace Sys2Proof.Machine

section Unit

variable {F : Type} (N : Num F)

/-- `Disc(s)` (R142): the unit after one sample and the sample's output. -/
def DscUnit.disc (u : DscUnit F) (x : Cx F) : DscUnit F × F :=
  ({ u with havePrev := true, prev := x },
    if u.havePrev then N.mul (angle N (cmulc N x u.prev)) u.gain else N.ofInt 0)

/-- The DSC unit on one batch (R142): the samples in order. -/
def DscUnit.run (u : DscUnit F) : List (Cx F) → DscUnit F × List F
  | [] => (u, [])
  | x :: xs =>
    let r := (u.disc N x).1.run xs
    (r.1, (u.disc N x).2 :: r.2)

end Unit

/-- `SETGAIN g` (R141). -/
def execSetgain (g : FBits) (s : State) : Result :=
  gated .setgain (Instr.setgain g).head s fun s =>
    .next { s.popCmd (Instr.setgain g).length with dsc := { s.dsc with gain := operandValue g } }

end Sys2Proof.Machine
end

