-- ==== Sys2Proof/Machine/Mixer.lean ====
section
/-! DEFINITION. Machine/Mixer.lean: the oscillator/mixer unit MIX and its commands `SETSHIFT`, `SETN` (41_mixer.md). -/

namespace Sys2Proof.Machine

section Unit

variable {F : Type} (N : Num F)

/-- The phases of the table build (R103), from `ph` on: each is stored before the increment that follows it. -/
def tablePhases (inc : F) : Nat → F → List F
  | 0, _ => []
  | n + 1, ph => ph :: tablePhases inc n (N.wrap (N.add ph inc))

/-- The table build (R103): `BATCH_N` entries, the sweep starting from zero. -/
def MixUnit.buildTable (u : MixUnit F) : MixUnit F :=
  let phases := tablePhases N u.phaseInc u.batchN.toNat (N.ofInt 0)
  { u with dsin := phases.map N.sin, dcos := phases.map N.cos }

/-- Cosine and sine of the starting phase, each divided by 32767, once per batch (R104). -/
def MixUnit.c0 (u : MixUnit F) : F := N.div (N.cos u.phase) (N.ofInt 32767)

@[inherit_doc MixUnit.c0]
def MixUnit.s0 (u : MixUnit F) : F := N.div (N.sin u.phase) (N.ofInt 32767)

/-- The multiplier of sample `i` of a batch: the pair `(ci, si)` of R104. -/
def MixUnit.rotator (u : MixUnit F) (i : Nat) : Cx F :=
  ⟨N.sub (N.mul (u.c0 N) (readWord N u.dcos i)) (N.mul (u.s0 N) (readWord N u.dsin i)),
   N.add (N.mul (u.s0 N) (readWord N u.dcos i)) (N.mul (u.c0 N) (readWord N u.dsin i))⟩

/-- A raw sample as a complex value. -/
def sample (x : Int × Int) : Cx F := ⟨N.ofInt x.1, N.ofInt x.2⟩

/-- The rotated samples of a batch (R104), the first of them at table entry `i`. -/
def MixUnit.rotateFrom (u : MixUnit F) : Nat → List (Int × Int) → List (Cx F)
  | _, [] => []
  | i, x :: xs => cmul N (sample N x) (u.rotator N i) :: u.rotateFrom (i + 1) xs

/-- The phase advance after `n` samples (R105). -/
def MixUnit.advance (u : MixUnit F) (n : Nat) : MixUnit F :=
  { u with phase := N.wrap (N.add u.phase (N.mul (N.ofInt n) u.phaseInc)) }

/-- The MIX unit on one batch (R104 to R106). A batch of no sample changes no unit state (R163): R104 runs the unit for
`1 <= n` only (log 12). -/
def MixUnit.run (u : MixUnit F) (raw : List (Int × Int)) : MixUnit F × List (Cx F) :=
  if u.shiftEn && !raw.isEmpty then (u.advance N raw.length, u.rotateFrom N 0 raw)
  else (u, raw.map (sample N))

/-- The unit with the shift rate `r` (R101): the rate and its increment. -/
def MixUnit.setShift (r : F) (u : MixUnit F) : MixUnit F :=
  { u with shiftRate := r, phaseInc := N.mul N.twoPi r }

end Unit

/-- `SETSHIFT r` (R101). -/
def execSetshift (r : FBits) (s : State) : Result :=
  gated .setshift (Instr.setshift r).head s fun s =>
    .next { s.popCmd (Instr.setshift r).length with
      mix := s.mix.setShift Config.num (operandValue r) }

/-- `SETN N` (R102). -/
def execSetn (n : U24) (s : State) : Result :=
  gated .setn (Instr.setn n).head s fun s =>
    .next { s.popCmd (Instr.setn n).length with mix := { s.mix with batchN := n } }

end Sys2Proof.Machine
end

