-- ==== Sys2Proof/Machine/Quantizer.lean ====
section
/-! DEFINITION. Machine/Quantizer.lean: the quantizer unit QNT and its command `SETQPOL` (44_quantizer.md). -/

namespace Sys2Proof.Machine

/-- The narrowing of a rounded integer to the `int16` range under a policy (R152). -/
def narrow (p : QPolicy) (z : Int) : Int :=
  match p with
  | .wrap => if z % 65536 ≤ 32767 then z % 65536 else z % 65536 - 65536
  | .sat => if z > 32767 then 32767 else if z < -32768 then -32768 else z

/-- `Quant(d)` (R152). -/
def QntUnit.quant {F : Type} (N : Num F) (u : QntUnit) (d : F) : Int :=
  narrow u.qpol (N.roundInt (N.mul d (N.ofInt 32767)))

/-- The QNT unit on one batch (R152). -/
def QntUnit.run {F : Type} (N : Num F) (u : QntUnit) (ds : List F) : List Int := ds.map (u.quant N)

/-- `SETQPOL p` (R151). -/
def execSetqpol (p : QPolicy) (s : State) : Result :=
  gated .setqpol (Instr.setqpol p).head s fun s =>
    .next { s.popCmd (Instr.setqpol p).length with qnt := { s.qnt with qpol := p } }

end Sys2Proof.Machine
end

