-- ==== Sys2Proof/Machine/Sequencer.lean ====
section
/-! DEFINITION. Machine/Sequencer.lean: the sequencer and its commands `NOP`, `RST`, `START`, `BATCH`, `STOP`, `RD`
(45_driver.md). -/

namespace Sys2Proof.Machine

section Unit

variable {F : Type} (N : Num F)

/-- The validation of `START` (R162): the first check that fails, in the written order. -/
def Pipeline.check (nmax : Nat) (u : Pipeline F) : Option Cause :=
  if u.mix.batchN.toNat = 0 || decide (nmax < u.mix.batchN.toNat) then some .configError
  else if u.dec.decimM.toNat = 0 then some .configError
  else if !(N.isFinite u.mix.shiftRate && N.isFinite u.mix.phaseInc && N.isFinite u.dsc.gain) then some .configError
  else if 2 ≤ u.dec.decimM.toNat then
    if u.dec.ntaps.toNat = 0 then some .filterError
    else if u.dec.decimM.toNat ≤ u.dec.dph.toNat then some .filterError
    else if (List.range u.dec.ntaps.toNat).any fun k => !N.isFinite (readWord N u.dec.coef k) then some .filterError
    else none
  else none

/-- The MIX unit of a new stream (R162): `SHIFT_EN` latched, the table built if it is set, `PHASE` zero. -/
def MixUnit.construct (u : MixUnit F) : MixUnit F :=
  let m := { u with shiftEn := !N.isZero u.shiftRate, phase := N.ofInt 0 }
  if m.shiftEn then m.buildTable N else m

/-- The DEC unit of a new stream (R162, R125). -/
def DecUnit.construct (u : DecUnit F) : DecUnit F :=
  ({ u with decEn := decide (2 ≤ u.decimM.toNat) }).init N

/-- The DSC unit of a new stream (R162). -/
def DscUnit.construct (u : DscUnit F) : DscUnit F := { u with prev := cxZero N, havePrev := false }

/-- The construction of `START` (R162): the units of a new stream. -/
def Pipeline.construct (u : Pipeline F) : Pipeline F :=
  { u with mix := u.mix.construct N, dec := u.dec.construct N, dsc := u.dsc.construct N }

/-- The composition of one batch (R164): MIX, DEC, DSC, QNT in this order, each on the whole output of the one before. -/
def Pipeline.run (u : Pipeline F) (raw : List (Int × Int)) : Pipeline F × List Int :=
  let a := u.mix.run N raw
  let b := u.dec.run N a.2
  let d := u.dsc.run N b.2
  ({ u with mix := a.1, dec := b.1, dsc := d.1 }, u.qnt.run N d.2)

/-- Batches run one after the other (R167): the pipeline in the end, and all outputs in order. -/
def Pipeline.runBatches (u : Pipeline F) : List (List (Int × Int)) → Pipeline F × List Int
  | [] => (u, [])
  | b :: bs =>
    let r := (u.run N b).1.runBatches bs
    (r.1, (u.run N b).2 ++ r.2)

end Unit

/-- `NOP` (R160). -/
def execNop (s : State) : Result :=
  gated .nop Instr.nop.head s fun s => .next (s.popCmd 1)

/-- `RST` (R161). -/
def execRst (s : State) : Result :=
  gated .rst Instr.rst.head s fun s => .next (s.popCmd 1).commandReset

/-- The units of `s` are those of a newly opened stream, the flags are clear and the stream is open: the construction
of `START` (R162). -/
def State.openStream (s : State) : State :=
  { s.clearFlags with toPipeline := s.toPipeline.construct Config.num, opState := .run }

/-- `START` (R162): validation, then construction. -/
def execStart (s : State) : Result :=
  gated .start Instr.start.head s fun s =>
    match s.toPipeline.check Config.num Config.nmax with
    | some c => .next (raise c Instr.start.head s)
    | none => .next (s.popCmd 1).openStream

/-- `n` samples have been taken from `IN` and run through the units, and the output is in `OUT` (R163). -/
def State.processBatch (n : U24) (s : State) : State :=
  let r := s.toPipeline.run Config.num (unpack (s.inFront (4 * n.toNat)))
  { ((s.inPop (4 * n.toNat)).outPush (pack r.2)).markShort n with toPipeline := r.1 }

/-- `BATCH n` (R163): while fewer than `4 n` bytes are in `IN` it holds, which is a step that changes nothing (R73, log 5). -/
def execBatch (n : U24) (s : State) : Result :=
  gated .batch (Instr.batch n).head s fun s =>
    if s.mix.batchN.toNat < n.toNat then .next (raise .badOperand (Instr.batch n).head s)
    else if s.inAvail < 4 * n.toNat then .next s
    else .next ((s.popCmd 1).processBatch n)

/-- The stream is closed (R165): what is left in `IN` is discarded, the flags say so, and the block is in IDLE. -/
def State.closeStream (s : State) : State :=
  { (s.inPop s.inAvail).markEnd s.inAvail with opState := .idle }

/-- `STOP` (R165). -/
def execStop (s : State) : Result :=
  gated .stop Instr.stop.head s fun s => .next (s.popCmd 1).closeStream

/-- What `RD idx` does in any domain (R166): the registers afterwards, and what it returns. Of an index that the read map
does not list it faults, but in ERROR it is dropped (R87, R182); then nothing is returned. -/
def Registers.rd {F : Type} (idx : BitVec 8) (u : Registers F) : Registers F × Option (Response F) :=
  match regAt idx with
  | some r => (u, some (r.read u))
  | none =>
    match u.opState with
    | .error => (u, none)
    | .idle | .run => (u.fault .badOperand (Instr.rd idx).head, none)

/-- `RD idx` (R166): what it returns is appended to `RSP` as words. -/
def execRd (idx : BitVec 8) (s : State) : Result :=
  gated .rd (Instr.rd idx).head s fun s =>
    let r := s.toRegisters.rd idx
    .next ({ s.popCmd 1 with toRegisters := r.1 }.rspPush (r.2.elim [] Response.words))

end Sys2Proof.Machine
end

