-- ==== Sys2Proof/Machine/Dispatch.lean ====
section
/-! DEFINITION. Machine/Dispatch.lean: the meaning of each command (R84), one arm each. `exec i s` is what the block does when
the words of `i` stand at the head of `CMD`; the meaning takes from `CMD` the words that the command consumes (log 5). -/

namespace Sys2Proof.Machine

def exec (i : Instr) (s : State) : Host.Outcome State Fault Refusal :=
  match i with
  | .nop => Sys2Proof.Machine.execNop s
  | .rst => Sys2Proof.Machine.execRst s
  | .start => Sys2Proof.Machine.execStart s
  | .batch n => Sys2Proof.Machine.execBatch n s
  | .stop => Sys2Proof.Machine.execStop s
  | .rd idx => Sys2Proof.Machine.execRd idx s
  | .setshift r => Sys2Proof.Machine.execSetshift r s
  | .setn n => Sys2Proof.Machine.execSetn n s
  | .setm m => Sys2Proof.Machine.execSetm m s
  | .setdph p => Sys2Proof.Machine.execSetdph p s
  | .ldtaps h => Sys2Proof.Machine.execLdtaps h s
  | .setgain g => Sys2Proof.Machine.execSetgain g s
  | .setqpol p => Sys2Proof.Machine.execSetqpol p s

end Sys2Proof.Machine
end

