-- ==== Sys2Proof/Machine/Fetch.lean ====
section
/-! DEFINITION. Machine/Fetch.lean: the block serves the head of `CMD` (R87 of 30_encoding.md). -/

namespace Sys2Proof.Machine

/-- The head word `w` matches no row of the opcode map: `IllegalCommand` (R85, step 3 of R87), but in ERROR the word is
dropped (step 2). -/
def illegalWord (w : Word) (s : State) : Result :=
  match s.opState with
  | .error => .next (s.popCmd 1)
  | .idle | .run => .next (raise .illegalCommand w s)

/-- The operand words of the command with head `h` are not all in `CMD` (R87): whatever the head word alone decides comes
first (steps 2, 4, 5); otherwise the command holds (step 6), which is a step that changes nothing (log 5). -/
def awaitOperands (h : Head) (s : State) : Result :=
  gated h.op h.word s fun s =>
    if h.op = .ldtaps && tooManyTaps h.imm.toNat then .next (raise .badOperand h.word s) else .next s

/-- One pass of the decoder of R87: with `CMD` empty the block waits (step 1). -/
def serve (s : State) : Result :=
  match decode s.cmd with
  | .ok (i, _) => exec i s
  | .error .noWord => .next s
  | .error (.illegal w) => illegalWord w s
  | .error (.missingOperands h) => awaitOperands h s

/-- The words of a command put at the head of `CMD`, before all others. -/
def State.putFirst (ws : List Word) (s : State) : State := { s with cmd := ws ++ s.cmd }

end Sys2Proof.Machine
end

