-- ==== Sys2Proof/Machine/Step.lean ====
section
/-! DEFINITION. Machine/Step.lean: one step of the block (R72 of 20_memory.md), and the place where a command is put to be
the next one it runs. -/

namespace Sys2Proof.Machine

/-- One step of the block: one command of `CMD`, or waiting. -/
def step (s : State) : Host.Outcome State Fault Refusal := serve s

/-- `s` with the command whose bits are `w`, numbered as spec/opcode_table.json numbers them, at the head of `CMD`, where
the block takes its next command (log 6). -/
def State.withFetchWord (s : State) (nbits w : Nat) : State := s.putFirst (tableLayout nbits w)

end Sys2Proof.Machine
end

