-- ==== Sys2Proof/Machine/Reference.lean ====
section
/-! DEFINITION. Machine/Reference.lean: `NUM_R`, the exact reals: the reference domain in which the spec computes its
derived values (R10 of 00_scope.md). It has no bit encoding, so the machine with its streams does not run at it; the registers, the units
and the effect of `RD` take the domain as an argument and are given at it (log 10). -/

namespace Sys2Proof.Machine

open Classical in
/-- The operations of R10 at the exact reals, each by the table's "ideal meaning". `unset` stays open (log 7). Where that meaning
stops, the model's choice stands (DESIGN CHOICE, log 10): R10 gives a quotient for b not 0 only, and here a quotient by 0 is
0 (no rule divides by zero: the divisors are 32767, 2 and M >= 2); it gives `atan2` off the zero pair only, and here
`Complex.arg`, the angle in (-pi, pi], is 0 there (R12 does not ask). -/
noncomputable def numReal (unset : Nat → ℝ) : Num ℝ where
  ofInt z := (z : ℝ)
  add a b := a + b
  sub a b := a - b
  mul a b := a * b
  div a b := a / b
  sin := Real.sin
  cos := Real.cos
  atan2 y x := Complex.arg ⟨x, y⟩
  pi := Real.pi
  twoPi := 2 * Real.pi
  wrap a := a - 2 * Real.pi * ⌈(a - Real.pi) / (2 * Real.pi)⌉
  isZero a := decide (a = 0)
  isFinite _ := true
  roundInt a := (SignType.sign a : Int) * ⌊|a| + 1 / 2⌋
  unset := unset

end Sys2Proof.Machine
end

