-- ==== Sys2Proof/Machine/HostAgent.lean ====
section
/-! DEFINITION. Machine/HostAgent.lean: the other agent, the host (R72 of 20_memory.md), runs in which block and host take
turns, the host's program and duties (R202, R203, R206), and what of the assembler (R88, R89 of 30_encoding.md) is more than
the encoder: the block sees none of it. -/

namespace Sys2Proof.Machine

/-- What the host may do, and nothing else (R72). -/
inductive HostAct
  /-- Append a word to `CMD`. -/
  | sendWord (w : Word)
  /-- Append a byte to `IN`. -/
  | pushByte (b : Byte)
  /-- Remove the byte at the head of `OUT`. -/
  | takeOut
  /-- Remove the word at the head of `RSP`. -/
  | takeRsp
  /-- Assert power-on reset (R200). -/
  | powerOn
deriving DecidableEq, Repr

/-- The effect of a host action on the state (R61, R72, R200). -/
def hostAct (a : HostAct) (s : State) : State :=
  match a with
  | .sendWord w => { s with cmd := s.cmd ++ [w] }
  | .pushByte b => { s with inp := s.inp ++ [b] }
  | .takeOut => { s with out := s.out.drop 1 }
  | .takeRsp => { s with rsp := s.rsp.drop 1 }
  | .powerOn => State.reset

/-- One event of a run: the block serves `CMD` once, or the host acts. -/
inductive Event
  | block
  | host (a : HostAct)
deriving DecidableEq, Repr

/-- The host appends to a stream that the block reads: a word to `CMD`, a byte to `IN`. -/
def Event.appends : Event → Bool
  | .host (.sendWord _) | .host (.pushByte _) => true
  | .block | .host .takeOut | .host .takeRsp | .host .powerOn => false

/-- In the events that follow, the host appends nothing more (R215). -/
def appendsNothing (rest : List Event) : Prop := ∀ e ∈ rest, e.appends = false

/-- A run: the events in order (log 6). -/
def runEvents : List Event → State → Result
  | [], s => .next s
  | .block :: es, s =>
    match step s with
    | .next s' => runEvents es s'
    | .fault r => .fault r
    | .refused r => .refused r
  | .host a :: es, s => runEvents es (hostAct a s)

/-! ## The host's program of a stream -/

/-- The host program of R167 and R202: configuration, `START`, the batches, `STOP`. -/
def streamProgram (config : List Instr) (counts : List U24) : List Instr :=
  config ++ Instr.start :: counts.map Instr.batch ++ [.stop]

/-- The host's duties about it (R202, R203): only configuration commands before `START`, `SETN` among them; whole samples on
`IN`, and as many as the batches take. -/
def streamDuties (config : List Instr) (counts : List U24) (input : List Byte) : Prop :=
  (∀ i ∈ config, Op.configures i.op = true) ∧ (∃ n, .setn n ∈ config) ∧
    input.length = 4 * (counts.map BitVec.toNat).sum

/-! ## The textual form (R88) -/

/-- The mnemonic of a command. -/
def Op.mnemonic : Op → String
  | .nop => "NOP"
  | .rst => "RST"
  | .start => "START"
  | .batch => "BATCH"
  | .stop => "STOP"
  | .rd => "RD"
  | .setshift => "SETSHIFT"
  | .setn => "SETN"
  | .setm => "SETM"
  | .setdph => "SETDPH"
  | .ldtaps => "LDTAPS"
  | .setgain => "SETGAIN"
  | .setqpol => "SETQPOL"

/-- The name by which `RD` takes a register (R50). -/
def Reg.name : Reg → String
  | .status => "STATUS"
  | .cause => "CAUSE"
  | .info => "INFO"
  | .batchN => "BATCH_N"
  | .decimM => "DECIM_M"
  | .ntaps => "NTAPS"
  | .dph => "DPH"
  | .dcnt => "DCNT"
  | .shiftRate => "SHIFT_RATE"
  | .phaseInc => "PHASE_INC"
  | .phase => "PHASE"
  | .gain => "GAIN"
  | .scale => "SCALE"
  | .prevRe => "PREV_RE"
  | .prevIm => "PREV_IM"

/-- `RD <register name>`. -/
def asmRd (name : String) : Option Instr :=
  (Reg.all.find? fun r => r.name == name).map fun r => .rd r.index

/-- `SETQPOL WRAP`, `SETQPOL SAT`. -/
def asmSetqpol (name : String) : Option Instr :=
  if name == "WRAP" then some (.setqpol .wrap) else if name == "SAT" then some (.setqpol .sat) else none

/-- The `F` operand written as the fraction `a/b` (a decimal literal is such a fraction): the quotient is taken in the domain
(log 11). -/
def asmFraction (a b : Int) : FBits := Config.enc (Config.num.div (Config.num.ofInt a) (Config.num.ofInt b))

/-- The `F` operands `PI` and `TWO_PI`. -/
def asmConstant (name : String) : Option FBits :=
  if name == "PI" then some (Config.enc Config.num.pi)
  else if name == "TWO_PI" then some (Config.enc Config.num.twoPi) else none

/-! ## Pseudo-instructions (R89) -/

/-- `RATES fs, fo`: `SETM fs/fo` when `fo` divides `fs` exactly; a configuration error otherwise, and when `fs <= 0` or
`fo <= 0` (R89, R206). A ratio that no `SETM` can carry is an error too (log 11). -/
def asmRates (fs fo : Int) : Option (List Instr) :=
  if fs ≤ 0 ∨ fo ≤ 0 then none
  else if fs % fo = 0 ∧ fs / fo < 2 ^ 24 then some [.setm (BitVec.ofInt 24 (fs / fo))]
  else none

/-- The host's derivation of `DECIM_M` from its rates (R206): the input rate must be given, the output rate is the input rate
where it is not. -/
def hostRates (samplerate resamplerate : Option Int) : Option (List Instr) :=
  samplerate.bind fun fs => asmRates fs (resamplerate.getD fs)

/-- `SHIFTHZ f, fs`: `SETSHIFT f/fs` (R89). -/
def asmShiftHz (f fs : Int) : List Instr := [.setshift (asmFraction f fs)]

/-- `STREAM T` with `BATCH_N = n`: full batches, then the rest if there is one, then `STOP` (R89). -/
def asmStream (t : Nat) (n : U24) : List Instr :=
  List.replicate (t / n.toNat) (.batch n) ++
    (if t % n.toNat = 0 then [] else [.batch (BitVec.ofNat 24 (t % n.toNat))]) ++ [.stop]

end Sys2Proof.Machine
end

