-- ==== Sys2Proof/Safety.lean ====
section
/-! DEFINITION. Safety.lean: what holds of every state the machine reaches (the invariant) and how a run ends (R215 of
70_reset_and_hazards.md). -/

namespace Sys2Proof.Machine

/-! ## The invariant -/

/-- The four memories fit their capacities (R43 to R45), `COEF` holds a value in exactly the words below `NTAPS` (R43), and
`DSIN` and `DCOS` hold one in the same words (R103). -/
abbrev Memory.wf (s : State) : Prop :=
  s.dec.coef.length = s.dec.ntaps.toNat ∧ s.dec.coef.length ≤ Config.lmax ∧ s.dec.dly.length ≤ Config.lmax ∧
  s.mix.dsin.length = s.mix.dcos.length ∧ s.mix.dsin.length ≤ Config.nmax

/-- What `START` has established about the MIX unit and nothing changes while the stream is open. -/
def MixUnit.Open {F : Type} (N : Num F) (nmax : Nat) (u : MixUnit F) : Prop :=
  1 ≤ u.batchN.toNat ∧ u.batchN.toNat ≤ nmax ∧ N.isFinite u.shiftRate = true ∧ N.isFinite u.phaseInc = true ∧
  u.shiftEn = !N.isZero u.shiftRate ∧
  (u.shiftEn = true →
    u.dsin = (tablePhases N u.phaseInc u.batchN.toNat (N.ofInt 0)).map N.sin ∧
    u.dcos = (tablePhases N u.phaseInc u.batchN.toNat (N.ofInt 0)).map N.cos)

/-- What `START` has established about the DEC unit and every batch keeps: the group counter stays inside the group and the
words the filter reads hold values. -/
def DecUnit.Open {F : Type} (N : Num F) (u : DecUnit F) : Prop :=
  1 ≤ u.decimM.toNat ∧ u.decEn = decide (2 ≤ u.decimM.toNat) ∧
  (u.decEn = false → u.dcnt = 0 ∧ u.yh = cxZero N) ∧
  (u.decEn = true →
    1 ≤ u.ntaps.toNat ∧ u.dph.toNat < u.decimM.toNat ∧ u.dcnt.toNat < u.decimM.toNat ∧
    u.coef.length = u.ntaps.toNat ∧ u.ntaps.toNat ≤ u.dly.length ∧
    (∀ c ∈ u.coef, N.isFinite c = true) ∧ u.scale = N.div (N.ofInt 1) (N.ofInt u.decimM.toNat))

/-- `PREV` is the zero pair as long as it holds no sample (R39, R40). -/
def DscUnit.Seeded {F : Type} (N : Num F) (u : DscUnit F) : Prop := u.havePrev = false → u.prev = cxZero N

/-- The units of an open stream. -/
def Pipeline.Open {F : Type} (N : Num F) (nmax : Nat) (u : Pipeline F) : Prop :=
  u.mix.Open N nmax ∧ u.dec.Open N ∧ N.isFinite u.dsc.gain = true

/-- The invariant of the machine: memories in form; the state is ERROR exactly when a fault is recorded (R25), and `INFO` is
0 while none is (R26); an open stream is as `START` left it where the configuration is frozen (R71); `PREV` is zero until
it holds a sample; a closed stream's flags do not stand while one is open (R33); there is no residue without an end of
stream. -/
structure State.Inv (s : State) : Prop where
  mem : Memory.wf s
  error_iff : s.opState = .error ↔ s.cause ≠ .noFault
  info_zero : s.cause = .noFault → s.info = 0
  run_open : s.opState = .run → s.toPipeline.Open Config.num Config.nmax
  seeded : s.dsc.Seeded Config.num
  eos_closed : s.eos = true → s.opState ≠ .run
  resid_eos : s.resid = true → s.eos = true

/-! ## What stays fixed -/

/-- The two states agree on what the units execute from: every configuration register, `COEF`, the phase table, the
latched enables and `SCALE` (R71). -/
def State.sameConfig (s t : State) : Prop :=
  t.mix.batchN = s.mix.batchN ∧ t.mix.shiftRate = s.mix.shiftRate ∧ t.mix.phaseInc = s.mix.phaseInc ∧
  t.mix.shiftEn = s.mix.shiftEn ∧ t.mix.dsin = s.mix.dsin ∧ t.mix.dcos = s.mix.dcos ∧
  t.dec.decimM = s.dec.decimM ∧ t.dec.ntaps = s.dec.ntaps ∧ t.dec.dph = s.dec.dph ∧ t.dec.scale = s.dec.scale ∧
  t.dec.decEn = s.dec.decEn ∧ t.dec.coef = s.dec.coef ∧ t.dsc.gain = s.dsc.gain ∧ t.qnt.qpol = s.qnt.qpol

/-- The two states agree on everything that is no stream. -/
def State.sameRegisters (s t : State) : Prop :=
  t.toPipeline = s.toPipeline ∧ t.opState = s.opState ∧ t.cause = s.cause ∧ t.info = s.info ∧
  t.short = s.short ∧ t.eos = s.eos ∧ t.resid = s.resid

/-! ## The end of a run (R215)

A run is delimited by the host, so each of these is said of the state the run has come to and of the events that follow it
(a run that goes on for ever: of each finite part of them). -/

/-- A command stands at the head of `CMD` and the block cannot go on without the host (R73). -/
def State.holds (s : State) : Prop := s.cmd ≠ [] ∧ step s = .next s

/-- What the block itself shows of a finished run: `CMD` is empty, no command is held, and no stream is open. -/
def State.finished (s : State) : Prop := s.cmd = [] ∧ ¬ s.holds ∧ s.opState ≠ .run

/-- What the block itself shows of a run that finished cleanly: in addition IDLE, `CAUSE` 0 and `EOS` 1. -/
def State.finishedCleanly (s : State) : Prop :=
  s.finished ∧ s.opState = .idle ∧ s.cause = .noFault ∧ s.eos = true

/-- A run is finished when in addition the host appends nothing more. -/
def RunFinished (s : State) (rest : List Event) : Prop := s.finished ∧ appendsNothing rest

/-- A run has finished cleanly. -/
def RunFinishedCleanly (s : State) (rest : List Event) : Prop := s.finishedCleanly ∧ appendsNothing rest

/-- A run has ended in a fault. -/
def RunEndedInFault (s : State) (rest : List Event) : Prop := RunFinished s rest ∧ s.opState = .error

/-- A run ends with a stream open, which is not a finished run. -/
def RunEndsWithOpenStream (s : State) (rest : List Event) : Prop :=
  s.cmd = [] ∧ s.opState = .run ∧ appendsNothing rest

/-- A run is stuck: a command holds for ever, in every state that the events lead to. -/
def RunStuck (s : State) (rest : List Event) : Prop :=
  ∀ es : List Event, es <+: rest → ∃ t, runEvents es s = .next t ∧ t.holds

end Sys2Proof.Machine
end

