-- ==== Sys2Proof/Certificates/Slice0/Obligations.lean ====
section
/-! DEFINITION. Certificates/Slice0/Obligations.lean: the statements for the provers. Each docstring names the rules of spec/
that the statement is about. -/

open Sys2Proof Sys2Proof.Machine

/-! ## Encoding (30_encoding.md) -/

/-- R81, R83, R84, R86: every command that can be written down is read back from its words, whatever stands behind them. -/
def Obligations.DecodeOfEncodeIsTheCommand : Prop :=
  ∀ (i : Instr) (rest : List Word), i.wf = true → decode (encode i ++ rest) = .ok (i, rest)

/-- R85 ("a model must not give any unlisted word a meaning"): the decoder reads a command only from that command's own
words. -/
def Obligations.EncodeOfDecodeIsTheWords : Prop :=
  ∀ (ws rest : List Word) (i : Instr), decode ws = .ok (i, rest) → i.wf = true ∧ ws = encode i ++ rest

/-- R85: the illegal head words are those whose opcode is not in the table and those of a defined opcode with a 1 in a
must-be-zero bit; decoding one outside ERROR raises `IllegalCommand` with `INFO` the word, in ERROR the word is dropped, and in
neither case is an operand word consumed. -/
def Obligations.IllegalHeadWords : Prop :=
  (∀ w : Word, decodeHead w = none ↔
    (w.extractLsb' 24 8).toNat ∉ [0x00, 0x01, 0x02, 0x03, 0x04, 0x05, 0x10, 0x11, 0x20, 0x21, 0x22, 0x30, 0x40] ∨
    ((w.extractLsb' 24 8).toNat ∈ [0x00, 0x01, 0x02, 0x04, 0x10, 0x30] ∧ w.extractLsb' 0 24 ≠ 0) ∨
    ((w.extractLsb' 24 8).toNat = 0x05 ∧ w.extractLsb' 8 16 ≠ 0) ∨
    ((w.extractLsb' 24 8).toNat = 0x40 ∧ w.extractLsb' 1 23 ≠ 0)) ∧
  (∀ (s : State) (w : Word) (rest : List Word), s.cmd = w :: rest → decodeHead w = none →
    (s.opState ≠ .error →
      step s = .next { s with cmd := rest, cause := .illegalCommand, info := w, opState := .error }) ∧
    (s.opState = .error → step s = .next { s with cmd := rest }))

/-- R86: a command's length in words. -/
def Obligations.CommandLengthInWords : Prop :=
  ∀ i : Instr, (encode i).length = i.length ∧
    i.length = match i with
      | .setshift _ | .setgain _ => 1 + Config.numW / 32
      | .ldtaps h => 1 + h.length * (Config.numW / 32)
      | .nop | .rst | .start | .batch _ | .stop | .rd _ | .setn _ | .setm _ | .setdph _ | .setqpol _ => 1

/-- R84, on words written out from the encoding (vectors H1 to H19 of 95_test_vectors.md). -/
def Obligations.WordsOfTheOpcodeMapDecode : Prop :=
  decode [0x00000000#32] = .ok (.nop, []) ∧ decode [0x01000000#32] = .ok (.rst, []) ∧
  decode [0x02000000#32] = .ok (.start, []) ∧ decode [0x03001000#32] = .ok (.batch 4096, []) ∧
  decode [0x03FFFFFF#32] = .ok (.batch 16777215, []) ∧ decode [0x04000000#32] = .ok (.stop, []) ∧
  decode [0x05000012#32] = .ok (.rd 0x12, []) ∧ decode [0x110000FF#32] = .ok (.setn 255, []) ∧
  decode [0x20000002#32] = .ok (.setm 2, []) ∧ decode [0x21000001#32] = .ok (.setdph 1, []) ∧
  decode [0x22000000#32] = .ok (.ldtaps [], []) ∧ decode [0x40000001#32] = .ok (.setqpol .sat, []) ∧
  decode [0x40000000#32] = .ok (.setqpol .wrap, []) ∧ decodeHead 0x10000000#32 = some ⟨.setshift, 0⟩ ∧
  decodeHead 0x30000000#32 = some ⟨.setgain, 0⟩ ∧ decodeHead 0x22000002#32 = some ⟨.ldtaps, 2⟩ ∧
  decode [0x02000001#32] = .error (.illegal 0x02000001#32) ∧ decode [0x05000108#32] = .error (.illegal 0x05000108#32) ∧
  decode [0x40000002#32] = .error (.illegal 0x40000002#32) ∧ decode [0x06000000#32] = .error (.illegal 0x06000000#32)

/-! ## The block serves its command stream (R87) -/

/-- R87 steps 1 to 7: when the words of a well-formed command stand at the head of `CMD`, a step of the block is the meaning
of that command. `exec` itself takes the words from `CMD` (log 5), as the statements about each command say. -/
def Obligations.StepRunsTheDecodedCommand : Prop :=
  (∀ (s : State) (i : Instr) (rest : List Word), decode s.cmd = .ok (i, rest) → step s = exec i s) ∧
  (∀ (s : State) (i : Instr) (rest : List Word), i.wf = true → s.cmd = encode i ++ rest → step s = exec i s)

/-- R73, R87 steps 1 and 6, R185: with `CMD` empty the block waits; with operand words missing it decides what the head word
alone decides (BadState, BadOperand of `LDTAPS`, dropping in ERROR), and otherwise waits. Waiting is a step that changes
nothing (log 5). -/
def Obligations.IncompleteCommandsWait : Prop :=
  (∀ s : State, s.cmd = [] → step s = .next s) ∧
  (∀ (s : State) (w : Word) (rest : List Word) (h : Head), s.cmd = w :: rest → decodeHead w = some h →
    rest.length < h.operandWords →
      (s.opState = .error → step s = .next { s with cmd := rest }) ∧
      (s.opState = .run → step s = .next { s with cmd := rest, cause := .badState, info := w, opState := .error }) ∧
      (s.opState = .idle → h.op = .ldtaps → Config.lmax < h.imm.toNat →
        step s = .next { s with cmd := rest, cause := .badOperand, info := w, opState := .error }) ∧
      (s.opState = .idle → (h.op = .ldtaps → h.imm.toNat ≤ Config.lmax) → step s = .next s))

/-- R215 ("The block never halts"): in every state there is a next one. (That waiting is a step too is the model's choice,
log 5; that a fault is a next state is its reading, log 9.) -/
def Obligations.TheBlockNeverHalts : Prop :=
  (∀ s : State, ∃ t, step s = .next t) ∧ (∀ (i : Instr) (s : State), ∃ t, exec i s = .next t)

/-- R86, R87 step 6, R185: a command takes from `CMD` exactly its own words; one that faults or is dropped takes its head word
only, and its operand words stay to be read as head words (R211). That a `BATCH` which holds has taken nothing, its head word
included, is the model's choice, not the spec's: R87 step 1 takes the head word first (log 5, DESIGN CHOICE). -/
def Obligations.CommandsTakeTheirOwnWords : Prop :=
  ∀ (s t : State) (i : Instr) (rest : List Word), i.wf = true → s.cmd = encode i ++ rest → step s = .next t →
    t.cmd = rest ∨ (t.cmd = i.operands ++ rest ∧ t.opState = .error) ∨
      (t = s ∧ s.opState = .run ∧ ∃ n, i = .batch n)

/-- R73: the commands that stand at the head of `CMD` and wait for the host are a `BATCH` in RUN whose input is not all
there, and an operand-carrying command in IDLE whose operand words are not all there; nothing else holds.
(That a hold is a step that changes nothing is the model's choice, log 5.) -/
def Obligations.WhatHolds : Prop :=
  ∀ s : State, s.holds ↔
    (∃ n rest, s.cmd = (Instr.batch n).head :: rest ∧ s.opState = .run ∧ n.toNat ≤ s.mix.batchN.toNat ∧
      s.inp.length < 4 * n.toNat) ∨
    (∃ w rest h, s.cmd = w :: rest ∧ decodeHead w = some h ∧ s.opState = .idle ∧ rest.length < h.operandWords ∧
      (h.op = .ldtaps → h.imm.toNat ≤ Config.lmax))

/-! ## The commands that write configuration (R101, R102, R121 to R123, R141, R151) -/

/-- R102, R121, R122, R151: in IDLE each of these commands writes its register and nothing else; in RUN it raises `BadState`. One
word is taken from `CMD`. -/
def Obligations.IntegerConfigurationCommandsWriteTheirRegister : Prop :=
  ∀ s : State,
    let badState (i : Instr) : State :=
      { s with cmd := s.cmd.drop 1, cause := .badState, info := i.head, opState := .error }
    (s.opState = .idle →
      (∀ n, exec (.setn n) s = .next { s with cmd := s.cmd.drop 1, mix := { s.mix with batchN := n } }) ∧
      (∀ m, exec (.setm m) s = .next { s with cmd := s.cmd.drop 1, dec := { s.dec with decimM := m } }) ∧
      (∀ p, exec (.setdph p) s = .next { s with cmd := s.cmd.drop 1, dec := { s.dec with dph := p } }) ∧
      (∀ p, exec (.setqpol p) s = .next { s with cmd := s.cmd.drop 1, qnt := { qpol := p } })) ∧
    (s.opState = .run →
      (∀ n, exec (.setn n) s = .next (badState (.setn n))) ∧ (∀ m, exec (.setm m) s = .next (badState (.setm m))) ∧
      (∀ p, exec (.setdph p) s = .next (badState (.setdph p))) ∧
      (∀ p, exec (.setqpol p) s = .next (badState (.setqpol p))))

/-- R101: `SETSHIFT r` in IDLE writes `SHIFT_RATE` and `PHASE_INC` and nothing else, for every value of r, and takes its head word
and its operand words; in RUN it raises `BadState`, and its operand words stay. -/
def Obligations.SetshiftWritesRateAndIncrement : Prop :=
  ∀ (s : State) (r : FBits),
    (s.opState = .idle → exec (.setshift r) s = .next { s with
      cmd := s.cmd.drop (1 + Config.numWords)
      mix := { s.mix with
        shiftRate := Config.dec r
        phaseInc := Config.num.mul Config.num.twoPi (Config.dec r) } }) ∧
    (s.opState = .run → exec (.setshift r) s = .next { s with
      cmd := s.cmd.drop 1, cause := .badState, info := 0x10000000#32, opState := .error })

/-- R141: `SETGAIN g` in IDLE writes `GAIN` and nothing else, for every value of g; in RUN it raises `BadState`. -/
def Obligations.SetgainWritesGain : Prop :=
  ∀ (s : State) (g : FBits),
    (s.opState = .idle → exec (.setgain g) s = .next { s with
      cmd := s.cmd.drop (1 + Config.numWords), dsc := { s.dsc with gain := Config.dec g } }) ∧
    (s.opState = .run → exec (.setgain g) s = .next { s with
      cmd := s.cmd.drop 1, cause := .badState, info := 0x30000000#32, opState := .error })

/-- R123: `LDTAPS` in IDLE with at most `LMAX` coefficients loads them, sets `NTAPS`, leaves words of `COEF` at index `L` and
above without a value, and touches nothing else; with more than `LMAX` it raises `BadOperand`, in RUN `BadState`, and then
only its head word is taken. -/
def Obligations.LdtapsLoadsTheCoefficients : Prop :=
  ∀ (s : State) (h : List FBits),
    (s.opState = .idle → h.length ≤ Config.lmax →
      exec (.ldtaps h) s = .next { s with
        cmd := s.cmd.drop (1 + h.length * Config.numWords)
        dec := { s.dec with coef := h.map Config.dec, ntaps := BitVec.ofNat 24 h.length } } ∧
      (BitVec.ofNat 24 h.length).toNat = h.length) ∧
    (s.opState = .idle → Config.lmax < h.length →
      exec (.ldtaps h) s = .next { s with
        cmd := s.cmd.drop 1, cause := .badOperand, info := (Instr.ldtaps h).head, opState := .error }) ∧
    (s.opState = .run → exec (.ldtaps h) s = .next { s with
      cmd := s.cmd.drop 1, cause := .badState, info := (Instr.ldtaps h).head, opState := .error })

/-! ## The sequencer (45_driver.md) -/

/-- R160: `NOP` does nothing, in every state (its word is taken from `CMD`). -/
def Obligations.NopDoesNothing : Prop :=
  ∀ s : State, exec .nop s = .next { s with cmd := s.cmd.drop 1 }

/-- R200, R47: power-on reset gives the state `State.reset` from every state, and these are its values. -/
def Obligations.PowerOnResetValues : Prop :=
  (∀ s : State, hostAct .powerOn s = State.reset) ∧
  State.reset.opState = .idle ∧ State.reset.cause = .noFault ∧ State.reset.cause.code = 0 ∧ State.reset.info = 0 ∧
  State.reset.mix.batchN = 0 ∧ State.reset.dec.decimM = 1 ∧ State.reset.dec.ntaps = 0 ∧ State.reset.dec.dph = 0 ∧
  State.reset.qnt.qpol = .wrap ∧ State.reset.mix.shiftEn = false ∧ State.reset.dec.decEn = false ∧
  State.reset.short = false ∧ State.reset.eos = false ∧ State.reset.resid = false ∧
  State.reset.mix.shiftRate = Config.num.ofInt 0 ∧ State.reset.mix.phaseInc = Config.num.ofInt 0 ∧
  State.reset.mix.phase = Config.num.ofInt 0 ∧
  State.reset.dsc.gain = Config.num.div (Config.num.ofInt 1) (Config.num.ofInt 2) ∧
  State.reset.dec.scale = Config.num.ofInt 1 ∧ State.reset.dsc.prev = ⟨Config.num.ofInt 0, Config.num.ofInt 0⟩ ∧
  State.reset.dsc.havePrev = false ∧ State.reset.dec.dcnt = 0 ∧
  State.reset.dec.yh = ⟨Config.num.ofInt 0, Config.num.ofInt 0⟩ ∧
  State.reset.dec.coef = [] ∧ State.reset.dec.dly = [] ∧ State.reset.mix.dsin = [] ∧ State.reset.mix.dcos = [] ∧
  State.reset.cmd = [] ∧ State.reset.inp = [] ∧ State.reset.out = [] ∧ State.reset.rsp = []

/-- R161, R201: in every state `RST` puts everything at its power-on value but `CMD`, `OUT` and `RSP`, which it leaves as they
are (its own word is taken); no fault. -/
def Obligations.RstResetsAllButThreeStreams : Prop :=
  ∀ s : State, exec .rst s = .next { State.reset with cmd := s.cmd.drop 1, out := s.out, rsp := s.rsp }

/-- R162, R184 (4): what `START` in IDLE answers when a check fails: the first one in the written order. Nothing else it
would have done is done (R183). -/
def Obligations.StartFaultsByTheFirstFailingCheck : Prop :=
  ∀ s : State, s.opState = .idle →
    let fault (c : Cause) : State :=
      { s with cmd := s.cmd.drop 1, cause := c, info := 0x02000000#32, opState := .error }
    (s.mix.batchN = 0 ∨ Config.nmax < s.mix.batchN.toNat → exec .start s = .next (fault .configError)) ∧
    (s.dec.decimM = 0 → exec .start s = .next (fault .configError)) ∧
    (Config.num.isFinite s.mix.shiftRate = false ∨ Config.num.isFinite s.mix.phaseInc = false ∨
      Config.num.isFinite s.dsc.gain = false → exec .start s = .next (fault .configError)) ∧
    (s.mix.batchN ≠ 0 → s.mix.batchN.toNat ≤ Config.nmax → Config.num.isFinite s.mix.shiftRate = true →
      Config.num.isFinite s.mix.phaseInc = true → Config.num.isFinite s.dsc.gain = true → 2 ≤ s.dec.decimM.toNat →
      (s.dec.ntaps = 0 ∨ s.dec.decimM.toNat ≤ s.dec.dph.toNat ∨
        (∃ (k : Nat) (c : Value), k < s.dec.ntaps.toNat ∧ s.dec.coef[k]? = some c ∧ Config.num.isFinite c = false)) →
      exec .start s = .next (fault .filterError))

/-- R162, R103, R125: `START` in IDLE whose checks pass opens a stream. The phase table has `BATCH_N` entries, entry `i` the
sine and cosine of the phase accumulated over `i` samples; with the MIX unit disabled the table stays; with the DEC unit
engaged the words of `DLY` in use are zero, those at `NTAPS` and above are as they were (the model's reading, log 8), `SCALE` is
1/M, and otherwise both stay. `IN`, `OUT`, `RSP`, the configuration,
`CAUSE` and `INFO` are as they were. -/
def Obligations.StartOpensTheStream : Prop :=
  ∀ s : State, s.opState = .idle → s.mix.batchN ≠ 0 → s.mix.batchN.toNat ≤ Config.nmax → s.dec.decimM ≠ 0 →
    Config.num.isFinite s.mix.shiftRate = true → Config.num.isFinite s.mix.phaseInc = true →
    Config.num.isFinite s.dsc.gain = true →
    (2 ≤ s.dec.decimM.toNat → s.dec.ntaps ≠ 0 ∧ s.dec.dph.toNat < s.dec.decimM.toNat ∧
      s.dec.coef.length = s.dec.ntaps.toNat ∧ ∀ c ∈ s.dec.coef, Config.num.isFinite c = true) →
    ∃ t : State, exec .start s = .next t ∧
      t = { s with
        cmd := s.cmd.drop 1, opState := .run, short := false, eos := false, resid := false
        mix := { s.mix with
          shiftEn := !Config.num.isZero s.mix.shiftRate, phase := Config.num.ofInt 0
          dsin := t.mix.dsin, dcos := t.mix.dcos }
        dec := { s.dec with
          decEn := decide (2 ≤ s.dec.decimM.toNat), dcnt := 0, yh := ⟨Config.num.ofInt 0, Config.num.ofInt 0⟩
          scale := t.dec.scale, dly := t.dec.dly }
        dsc := { s.dsc with prev := ⟨Config.num.ofInt 0, Config.num.ofInt 0⟩, havePrev := false } } ∧
      (Config.num.isZero s.mix.shiftRate = true → t.mix.dsin = s.mix.dsin ∧ t.mix.dcos = s.mix.dcos) ∧
      (Config.num.isZero s.mix.shiftRate = false →
        t.mix.dsin.length = s.mix.batchN.toNat ∧ t.mix.dcos.length = s.mix.batchN.toNat ∧
        ∀ i < s.mix.batchN.toNat,
          let ph := (fun a => Config.num.wrap (Config.num.add a s.mix.phaseInc))^[i] (Config.num.ofInt 0)
          t.mix.dsin[i]? = some (Config.num.sin ph) ∧ t.mix.dcos[i]? = some (Config.num.cos ph)) ∧
      (2 ≤ s.dec.decimM.toNat →
        t.dec.scale = Config.num.div (Config.num.ofInt 1) (Config.num.ofInt s.dec.decimM.toNat) ∧
        (∀ k < s.dec.ntaps.toNat, t.dec.dly[k]? = some ⟨Config.num.ofInt 0, Config.num.ofInt 0⟩) ∧
        t.dec.dly.drop s.dec.ntaps.toNat = s.dec.dly.drop s.dec.ntaps.toNat) ∧
      (s.dec.decimM.toNat < 2 → t.dec.scale = s.dec.scale ∧ t.dec.dly = s.dec.dly)

/-- R163, R164, R69: `BATCH n` in RUN with `n <= BATCH_N` and its input there runs MIX, DEC, DSC, QNT in this order on the
n samples at the head of `IN`, each unit on the whole output of the one before, and appends the packed result to `OUT`. -/
def Obligations.BatchRunsTheFourUnitsInOrder : Prop :=
  ∀ (s : State) (n : U24), s.opState = .run → n.toNat ≤ s.mix.batchN.toNat → 4 * n.toNat ≤ s.inp.length →
    let raw := unpack (s.inp.take (4 * n.toNat))
    let a := s.mix.run Config.num raw
    let b := s.dec.run Config.num a.2
    let d := s.dsc.run Config.num b.2
    raw.length = n.toNat ∧
    exec (.batch n) s = .next { s with
      cmd := s.cmd.drop 1, inp := s.inp.drop (4 * n.toNat), mix := a.1, dec := b.1, dsc := d.1
      out := s.out ++ pack (s.qnt.run Config.num d.2)
      short := s.short || decide (n.toNat < s.mix.batchN.toNat) }

/-- The frame of `BATCH n` in RUN (R49, R71, R163): of the registers it may write only `PHASE`, `DLY`, `DCNT`, `YH`, `PREV`,
`HAVE_PREV` and `SHORT`; with the MIX unit bypassed `PHASE` stays (R106), with the DEC unit bypassed `DLY`, `DCNT` and `YH` stay
(R127); a batch of no sample changes no unit state and appends nothing. -/
def Obligations.BatchFrame : Prop :=
  ∀ (s t : State) (n : U24), s.opState = .run → n.toNat ≤ s.mix.batchN.toNat → 4 * n.toNat ≤ s.inp.length →
    exec (.batch n) s = .next t →
      t = { s with
        cmd := s.cmd.drop 1, inp := s.inp.drop (4 * n.toNat), out := t.out, short := t.short
        mix := { s.mix with phase := t.mix.phase }
        dec := { s.dec with dly := t.dec.dly, dcnt := t.dec.dcnt, yh := t.dec.yh }
        dsc := { s.dsc with prev := t.dsc.prev, havePrev := t.dsc.havePrev } } ∧
      (∃ bs, t.out = s.out ++ bs) ∧ (s.short = true → t.short = true) ∧
      (s.mix.shiftEn = false → t.mix = s.mix) ∧ (s.dec.decEn = false → t.dec = s.dec) ∧
      (n = 0 → t.toPipeline = s.toPipeline ∧ t.out = s.out)

/-- R73, R180, R184: `BATCH n` in RUN with `n > BATCH_N` raises `BadOperand` and takes no byte from `IN`; with too little in
`IN` it holds, which is a step that changes nothing (the model's choice, log 5). -/
def Obligations.BatchFaultsOrHolds : Prop :=
  ∀ (s : State) (n : U24), s.opState = .run →
    (s.mix.batchN.toNat < n.toNat →
      exec (.batch n) s = .next { s with
        cmd := s.cmd.drop 1, cause := .badOperand, info := (Instr.batch n).head, opState := .error }) ∧
    (n.toNat ≤ s.mix.batchN.toNat → s.inp.length < 4 * n.toNat → exec (.batch n) s = .next s)

/-- R165: `STOP` in RUN discards what is left in `IN`, sets `EOS`, sets `RESID` if there was anything, and goes to IDLE; nothing
else changes and no output is produced. In IDLE it raises `BadState`. -/
def Obligations.StopClosesTheStream : Prop :=
  ∀ s : State,
    (s.opState = .run → exec .stop s = .next { s with
      cmd := s.cmd.drop 1, inp := [], eos := true, resid := s.resid || !s.inp.isEmpty, opState := .idle }) ∧
    (s.opState = .idle → exec .stop s = .next { s with
      cmd := s.cmd.drop 1, cause := .badState, info := 0x04000000#32, opState := .error })

/-- R50, R166, R182: `RD` of an index of the read map appends the register's words to `RSP` in every state and changes nothing
else; integer registers zero-extended (`CAUSE` as its code by R180), real-valued ones as the words of `enc`, least significant
first. Of an index that the map does not list (0x08 to 0x0F and 0x17 to 0xFF, V3) it raises `BadOperand` in IDLE and RUN and
is dropped in ERROR. -/
def Obligations.RdPushesTheRegister : Prop :=
  ∀ s : State,
    let causeWord : Word :=
      match s.cause with
      | .noFault => 0
      | .configError => 1
      | .filterError => 2
      | .illegalCommand => 5
      | .badState => 6
      | .badOperand => 7
    let answers (idx : BitVec 8) (ws : List Word) : Prop :=
      exec (.rd idx) s = .next { s with cmd := s.cmd.drop 1, rsp := s.rsp ++ ws }
    let words (a : Value) : List Word :=
      (List.range (Config.numW / 32)).map fun k => (Config.enc a).extractLsb' (32 * k) 32
    (answers 0x00 [statusWord s.toRegisters] ∧ answers 0x01 [causeWord] ∧ answers 0x02 [s.info] ∧
      answers 0x03 [s.mix.batchN.setWidth 32] ∧ answers 0x04 [s.dec.decimM.setWidth 32] ∧
      answers 0x05 [s.dec.ntaps.setWidth 32] ∧ answers 0x06 [s.dec.dph.setWidth 32] ∧
      answers 0x07 [s.dec.dcnt.setWidth 32] ∧ answers 0x10 (words s.mix.shiftRate) ∧
      answers 0x11 (words s.mix.phaseInc) ∧ answers 0x12 (words s.mix.phase) ∧ answers 0x13 (words s.dsc.gain) ∧
      answers 0x14 (words s.dec.scale) ∧ answers 0x15 (words s.dsc.prev.re) ∧ answers 0x16 (words s.dsc.prev.im)) ∧
    (∀ idx : BitVec 8, (0x08 ≤ idx.toNat ∧ idx.toNat ≤ 0x0F) ∨ 0x17 ≤ idx.toNat →
      (s.opState ≠ .error →
        exec (.rd idx) s = .next { s with
          cmd := s.cmd.drop 1, cause := .badOperand, info := (Instr.rd idx).head, opState := .error }) ∧
      (s.opState = .error → exec (.rd idx) s = .next { s with cmd := s.cmd.drop 1 }))

/-- R24: the bits of `STATUS`, and that `RD` of index 0x00 answers it in every state. -/
def Obligations.StatusWordBits : Prop :=
  ∀ s : State,
    let w : Word := statusWord s.toRegisters
    exec (.rd 0x00) s = .next { s with cmd := s.cmd.drop 1, rsp := s.rsp ++ [w] } ∧
    w.extractLsb' 0 2 = (match s.opState with | .idle => 0 | .run => 1 | .error => 2) ∧
    w.getLsbD 2 = s.mix.shiftEn ∧ w.getLsbD 3 = s.dec.decEn ∧
    w.getLsbD 4 = s.dsc.havePrev ∧ w.getLsbD 5 = decide (s.qnt.qpol = .sat) ∧
    w.getLsbD 6 = s.short ∧ w.getLsbD 7 = s.eos ∧ w.getLsbD 8 = s.resid ∧
    (∀ k, 9 ≤ k → w.getLsbD k = false)

/-! ## Faults and operating states (60_exceptions.md) -/

/-- R182, R183, R185: a command in a state that does not allow it: `BadState` outside ERROR, dropped in ERROR; only its head
word is taken, so its operand words stay in `CMD` (R211). -/
def Obligations.InadmissibleCommands : Prop :=
  ∀ (s : State) (i : Instr),
    let badState : State := { s with cmd := s.cmd.drop 1, cause := .badState, info := i.head, opState := .error }
    (s.opState = .error → i.op ∉ [Op.nop, .rst, .rd] → exec i s = .next { s with cmd := s.cmd.drop 1 }) ∧
    (s.opState = .idle → i.op ∈ [Op.batch, .stop] → exec i s = .next badState) ∧
    (s.opState = .run →
      i.op ∈ [Op.start, .setshift, .setn, .setm, .setdph, .ldtaps, .setgain, .setqpol] → exec i s = .next badState)

/-- R183, R185: whenever a step of the block enters ERROR, it has done nothing but that: `CAUSE`, `INFO` and `STATE` are written,
`INFO` is the word that stood at the head of `CMD`, that one word is taken, and everything else is as it was. -/
def Obligations.FaultEntryIsPrecise : Prop :=
  ∀ s t : State, step s = .next t → s.opState ≠ .error → t.opState = .error →
    ∃ w rest, s.cmd = w :: rest ∧ t.cause ≠ .noFault ∧
      t = { s with cmd := rest, cause := t.cause, info := w, opState := .error }

/-- R186: in ERROR the block executes only the exact word of `RST`, the exact word of `NOP` and an `RD` of a defined index; every
other word is removed from `CMD` without effect, without an operand consumed and without a new fault. -/
def Obligations.ErrorStateExecutesThreeWordsOnly : Prop :=
  ∀ (s : State) (w : Word) (rest : List Word), s.opState = .error → s.cmd = w :: rest →
    (w = 0x01000000#32 → step s = .next { State.reset with cmd := rest, out := s.out, rsp := s.rsp }) ∧
    (w = 0x00000000#32 → step s = .next { s with cmd := rest }) ∧
    (∀ (idx : BitVec 8) (r : Reg), w = 0x05000000#32 ||| idx.setWidth 32 → r.index = idx →
      step s = .next { s with cmd := rest, rsp := s.rsp ++ r.words s }) ∧
    (w ≠ 0x01000000#32 → w ≠ 0x00000000#32 → (∀ r : Reg, w ≠ 0x05000000#32 ||| r.index.setWidth 32) →
      step s = .next { s with cmd := rest })

/-- Property P-ERR over runs of block and host in any order: from a state in ERROR, as long as neither `RST` is taken nor
power-on reset asserted, the block stays in ERROR with the same registers, `OUT` grows by nothing and `IN` loses nothing.
(Runs as lists of events are the model's form, log 6.) -/
def Obligations.ErrorLastsUntilReset : Prop :=
  ∀ (es : List Event) (s t : State), s.opState = .error → runEvents es s = .next t →
    .host .powerOn ∉ es → (∀ w ∈ s.cmd, w ≠ 0x01000000#32) → (∀ w, .host (.sendWord w) ∈ es → w ≠ 0x01000000#32) →
      s.sameRegisters t ∧ (∃ k, t.out = s.out.drop k) ∧ (∃ bs, t.inp = s.inp ++ bs)

/-- R23, R189: how a step moves the operating state, over all commands: to RUN from IDLE only by `START`; to IDLE from RUN only
by `STOP` or `RST`, from ERROR only by `RST`. -/
def Obligations.OperatingStateMoves : Prop :=
  ∀ s t : State, step s = .next t →
    (s.opState = .idle → t.opState = .run → s.cmd.head? = some 0x02000000#32) ∧
    (s.opState = .run → t.opState = .idle → s.cmd.head? = some 0x04000000#32 ∨ s.cmd.head? = some 0x01000000#32) ∧
    (s.opState = .error → t.opState ≠ .error → s.cmd.head? = some 0x01000000#32 ∧ t.opState = .idle)

/-- R71, R210, property P-CFG: no step that leaves a stream open changes what the units execute from. -/
def Obligations.ConfigurationIsFrozenWhileRunning : Prop :=
  ∀ s t : State, step s = .next t → s.opState = .run → t.opState = .run → s.sameConfig t

/-- R25, R26: `CAUSE` and `INFO` are written by fault entry and by `RST` only. -/
def Obligations.CauseAndInfoAreSticky : Prop :=
  ∀ s t : State, step s = .next t → (t.cause ≠ s.cause ∨ t.info ≠ s.info) →
    (s.opState ≠ .error ∧ t.opState = .error) ∨ s.cmd.head? = some 0x01000000#32

/-- R60, R61, R69: a step takes words and bytes from `CMD` and `IN` at the head only (any number: `STOP` and `RST` discard
what is in `IN`, R165, R161) and appends to `OUT` and `RSP` at the tail only; only a `BATCH` appends to `OUT`, and only an
`RD` to `RSP`. -/
def Obligations.StreamsAreQueues : Prop :=
  ∀ s t : State, step s = .next t →
    (∃ k, t.cmd = s.cmd.drop k) ∧ (∃ k, t.inp = s.inp.drop k) ∧
    (∃ bs, t.out = s.out ++ bs) ∧ (∃ ws, t.rsp = s.rsp ++ ws) ∧
    (t.out ≠ s.out → s.opState = .run ∧ ∃ n rest, s.cmd = (Instr.batch n).head :: rest) ∧
    (t.rsp ≠ s.rsp → ∃ idx rest, s.cmd = (Instr.rd idx).head :: rest)

/-! ## The invariant -/

/-- The invariant holds after power-on reset. -/
def Obligations.ResetMeetsTheInvariant : Prop := State.reset.Inv

/-- Every step of the block keeps the invariant. -/
def Obligations.StepKeepsTheInvariant : Prop :=
  ∀ s t : State, s.Inv → step s = .next t → t.Inv

/-- Every action of the host keeps the invariant (R72), so every run of block and host from a state that meets it stays
inside it. (Runs as lists of events are the model's form, log 6.) -/
def Obligations.RunsKeepTheInvariant : Prop :=
  (∀ (a : HostAct) (s : State), s.Inv → (hostAct a s).Inv) ∧
  (∀ (es : List Event) (s t : State), s.Inv → runEvents es s = .next t → t.Inv)

/-- R43, R201 ("no rule reads them before a command has written them"): the units of an open stream read no memory word that
holds no value: what such a word would give (a free value of the model, log 7) has no effect on a batch of at most
`BATCH_N` samples. -/
def Obligations.NoEmptyWordIsRead : Prop :=
  ∀ (F : Type) (N : Num F) (nmax : Nat) (u : Pipeline F) (raw : List (Int × Int)) (e : Nat → F),
    u.Open N nmax → raw.length ≤ u.mix.batchN.toNat →
      u.run { N with unset := e } raw = u.run N raw ∧ (u.run N raw).1.Open N nmax

/-! ## The units, in every numeric domain -/

/-- R104 to R106: the MIX unit sample by sample, in every domain. That a batch of no sample leaves the unit as it is with
`SHIFT_EN` set too, `PHASE` included, follows R163 and is the model's reading of R105 (DEDUCED, log 12). -/
def Obligations.MixerRotatesOrPasses : Prop :=
  ∀ (F : Type) (N : Num F) (u : MixUnit F) (raw : List (Int × Int)),
    (u.run N raw).2.length = raw.length ∧
    (u.shiftEn = true → raw ≠ [] →
      (u.run N raw).1 =
        { u with phase := N.wrap (N.add u.phase (N.mul (N.ofInt raw.length) u.phaseInc)) } ∧
      ∀ (i : Nat) (x : Int × Int) (ds dc : F), raw[i]? = some x → u.dsin[i]? = some ds → u.dcos[i]? = some dc →
        let c0 := N.div (N.cos u.phase) (N.ofInt 32767)
        let s0 := N.div (N.sin u.phase) (N.ofInt 32767)
        let ci := N.sub (N.mul c0 dc) (N.mul s0 ds)
        let si := N.add (N.mul s0 dc) (N.mul c0 ds)
        (u.run N raw).2[i]? = some
          ⟨N.sub (N.mul (N.ofInt x.1) ci) (N.mul (N.ofInt x.2) si),
           N.add (N.mul (N.ofInt x.1) si) (N.mul (N.ofInt x.2) ci)⟩) ∧
    (u.shiftEn = false ∨ raw = [] →
      u.run N raw = (u, raw.map fun x => ⟨N.ofInt x.1, N.ofInt x.2⟩))

/-- R126 to R128 (R128 is the spec's own inference): how many values the DEC unit emits and where its group counter ends, in
every domain, and the bypass. -/
def Obligations.DecimatorOutputCount : Prop :=
  ∀ (F : Type) (N : Num F) (u : DecUnit F) (a : List (Cx F)),
    (u.decEn = false → u.run N a = (u, a)) ∧
    (u.decEn = true → u.dcnt.toNat < u.decimM.toNat →
      (u.run N a).2.length = (u.dcnt.toNat + a.length) / u.decimM.toNat ∧
      (u.run N a).1.dcnt.toNat = (u.dcnt.toNat + a.length) % u.decimM.toNat)

/-- R129 (the spec's own inference from R125 and R126): the closed form of the DEC unit, exactly, in every domain: from the
state `START` leaves, the g-th value emitted is `SCALE` times the sum over the taps, in the order of R126, of `COEF[k]` times
input `g*M + DPH - k`, where an input before the first counts as zero. -/
def Obligations.DecimatorClosedForm : Prop :=
  ∀ (F : Type) (N : Num F) (u : DecUnit F) (x : List (Cx F)) (g : Nat),
    (∀ y, u.run N (x ++ y) = (((u.run N x).1.run N y).1, (u.run N x).2 ++ ((u.run N x).1.run N y).2)) ∧
    (u.decEn = true → 1 ≤ u.ntaps.toNat → u.coef.length = u.ntaps.toNat → u.dph.toNat < u.decimM.toNat → u.dcnt = 0 →
    u.dly.take u.ntaps.toNat = List.replicate u.ntaps.toNat ⟨N.ofInt 0, N.ofInt 0⟩ →
    (g + 1) * u.decimM.toNat ≤ x.length →
      let input (t : Nat) (k : Nat) : Cx F := if k ≤ t then x.getD (t - k) ⟨N.ofInt 0, N.ofInt 0⟩ else ⟨N.ofInt 0, N.ofInt 0⟩
      let sum : Cx F := (List.range u.ntaps.toNat).foldl
        (fun acc k =>
          let c := u.coef.getD k (N.ofInt 0)
          let y := input (g * u.decimM.toNat + u.dph.toNat) k
          ⟨N.add acc.re (N.mul c y.re), N.add acc.im (N.mul c y.im)⟩)
        ⟨N.ofInt 0, N.ofInt 0⟩
      (u.run N x).2[g]? = some ⟨N.mul u.scale sum.re, N.mul u.scale sum.im⟩)

/-- R44, R126: the delay line: after any samples, word `k` in use holds the sample taken `k` samples earlier, or, as far as fewer
were taken, what stood `k` minus that many words earlier; words at `NTAPS` and above are not touched (the model's reading,
log 8). -/
def Obligations.DelayLineHoldsTheLastSamples : Prop :=
  ∀ (F : Type) (N : Num F) (u : DecUnit F) (x : List (Cx F)),
    u.decEn = true → 1 ≤ u.ntaps.toNat → u.ntaps.toNat ≤ u.dly.length →
      (u.run N x).1.dly =
        (x.reverse ++ u.dly.take u.ntaps.toNat).take u.ntaps.toNat ++ u.dly.drop u.ntaps.toNat

/-- R142: the DSC unit sample by sample, in every domain: the first sample of the stream gives 0, every other the angle of
itself times the conjugate of the one before, times the gain; the unit ends remembering the last sample. -/
def Obligations.DiscriminatorOutputs : Prop :=
  ∀ (F : Type) (N : Num F) (u : DscUnit F) (x : Cx F) (xs : List (Cx F)),
    let r := u.run N (x :: xs)
    let out (p y : Cx F) : F :=
      let re := N.add (N.mul y.re p.re) (N.mul y.im p.im)
      let im := N.sub (N.mul y.im p.re) (N.mul y.re p.im)
      N.mul (if N.isZero re && N.isZero im then N.ofInt 0 else N.atan2 im re) u.gain
    r.2.length = xs.length + 1 ∧
    r.2[0]? = some (if u.havePrev then out u.prev x else N.ofInt 0) ∧
    (∀ (i : Nat) (p y : Cx F), (x :: xs)[i]? = some p → (x :: xs)[i + 1]? = some y → r.2[i + 1]? = some (out p y)) ∧
    r.1 = { u with havePrev := true, prev := (x :: xs).getLast (List.cons_ne_nil x xs) } ∧
    u.run N [] = (u, [])

/-- R152: both policies, on every integer: WRAP keeps the low 16 bits read as two's complement, SAT clamps to the `int16`
range, and both return an integer that fits unchanged; in every domain `Quant(d)` narrows the rounded product. -/
def Obligations.QuantizerPolicies : Prop :=
  (∀ z : Int,
    BitVec.ofInt 16 (narrow .wrap z) = BitVec.ofInt 16 z ∧ narrow .sat z = max (-32768) (min z 32767) ∧
    (∀ p, -32768 ≤ narrow p z ∧ narrow p z ≤ 32767) ∧ (∀ p, -32768 ≤ z → z ≤ 32767 → narrow p z = z)) ∧
  (∀ (F : Type) (N : Num F) (u : QntUnit) (ds : List F),
    u.run N ds = ds.map fun d => narrow u.qpol (N.roundInt (N.mul d (N.ofInt 32767))))

/-- R62 to R64: the byte order of input and output samples. -/
def Obligations.SampleBytes : Prop :=
  (∀ (b0 b1 b2 b3 : Byte) (rest : List Byte),
    unpack (b0 :: b1 :: b2 :: b3 :: rest) = ((b1 ++ b0).toInt, (b3 ++ b2).toInt) :: unpack rest) ∧
  (∀ bs : List Byte, (unpack bs).length = bs.length / 4) ∧
  (∀ (q : Int) (qs : List Int), -32768 ≤ q → q ≤ 32767 →
    ∃ lo hi : Byte, pack (q :: qs) = lo :: hi :: pack qs ∧ (hi ++ lo).toInt = q) ∧
  pack [] = []

/-- Batch-size invariance with the MIX unit bypassed, bit for bit in every domain (R129, R144 (e), R167, property P-INV): the
units after one batch and then another, and their outputs one behind the other, are those of the two batches as one. -/
def Obligations.BatchSplitInvarianceWithoutShift : Prop :=
  ∀ (F : Type) (N : Num F) (u : Pipeline F) (xs ys : List (Int × Int)), u.mix.shiftEn = false →
    (u.run N (xs ++ ys)).1 = ((u.run N xs).1.run N ys).1 ∧
    (u.run N (xs ++ ys)).2 = (u.run N xs).2 ++ ((u.run N xs).1.run N ys).2

/-- R163, R128, property P-CNT: how many bytes a `BATCH` appends. -/
def Obligations.BatchOutputLength : Prop :=
  ∀ (s t : State) (n : U24), s.Inv → s.opState = .run → n.toNat ≤ s.mix.batchN.toNat → 4 * n.toNat ≤ s.inp.length →
    exec (.batch n) s = .next t →
      (s.dec.decEn = true →
        t.out.length = s.out.length + 2 * ((s.dec.dcnt.toNat + n.toNat) / s.dec.decimM.toNat)) ∧
      (s.dec.decEn = false → t.out.length = s.out.length + 2 * n.toNat)

/-- Property P-FIRST (R142, law (e) of R11): the first sample a stream puts out is 0. (That 32767 is a finite value is
the model's reading of law (b), log 2.) -/
def Obligations.FirstOutputIsZero : Prop :=
  ∀ (s t : State) (n : U24), s.dsc.havePrev = false → s.opState = .run → exec (.batch n) s = .next t →
    t.out = s.out ∨ (t.dsc.havePrev = true ∧ ∃ bs, t.out = s.out ++ 0#8 :: 0#8 :: bs)

/-- Property P-RANGE (R36, R105, laws (b) and (c) of R11): in every domain whose values stand for real numbers as laws (b) and
(c) say (`Num.Denotes`, the model's form of them, log 3), the phase of a new stream stands for 0 and so lies in (-pi, pi], and
a batch keeps it in (-pi, pi] when the advanced phase is a finite value. The laws give every domain such a reading. -/
def Obligations.PhaseStaysInItsInterval : Prop :=
  ∀ (F : Type) (N : Num F), (N.Laws → ∃ val, N.Denotes val) ∧
    ∀ (val : F → ℝ), N.Denotes val → ∀ (u : MixUnit F) (raw : List (Int × Int)),
      val (u.construct N).phase = 0 ∧ (-Real.pi < val (u.construct N).phase ∧ val (u.construct N).phase ≤ Real.pi) ∧
      (-Real.pi < val u.phase → val u.phase ≤ Real.pi →
        N.isFinite (N.add u.phase (N.mul (N.ofInt raw.length) u.phaseInc)) = true →
        -Real.pi < val (u.run N raw).1.phase ∧ val (u.run N raw).1.phase ≤ Real.pi)

/-! ## The exact reals (R10) -/

/-- R10, R11: the exact reals meet the laws, each real standing for itself, and `wrap` is the full reduction: the value in
(-pi, pi] congruent to its operand modulo 2 pi. (Laws (b) and (c) in the model's form: log 2, log 3.) -/
def Obligations.ExactRealsMeetTheLaws : Prop :=
  ∀ unset : Nat → ℝ, (numReal unset).Laws ∧ (numReal unset).Denotes id ∧
    ∀ a : ℝ, -Real.pi < (numReal unset).wrap a ∧ (numReal unset).wrap a ≤ Real.pi ∧
      ∃ k : Int, (numReal unset).wrap a = a - 2 * Real.pi * k

/-- R166, R50 at the exact reals ("In `NUM_R` a real-valued read returns the value itself"): a read of a real-valued register
returns its value, of an integer register its word, and changes nothing; a read of an index that R50 does not list returns
nothing, and outside ERROR faults. Then R166's example: after `SETSHIFT 0.25`, `SETN 3`, `START` and a `BATCH 3` of any samples,
`RD PHASE` returns -pi/2. -/
def Obligations.RdAtTheExactReals : Prop :=
  (∀ u : Registers ℝ,
    let returns (idx : BitVec 8) (r : Response ℝ) : Prop := u.rd idx = (u, some r)
    (returns 0x10 (.value u.mix.shiftRate) ∧ returns 0x11 (.value u.mix.phaseInc) ∧ returns 0x12 (.value u.mix.phase) ∧
      returns 0x13 (.value u.dsc.gain) ∧ returns 0x14 (.value u.dec.scale) ∧ returns 0x15 (.value u.dsc.prev.re) ∧
      returns 0x16 (.value u.dsc.prev.im)) ∧
    (returns 0x00 (.word (statusWord u)) ∧ returns 0x01 (.word (u.cause.code.setWidth 32)) ∧ returns 0x02 (.word u.info) ∧
      returns 0x03 (.word (u.mix.batchN.setWidth 32)) ∧ returns 0x04 (.word (u.dec.decimM.setWidth 32)) ∧
      returns 0x05 (.word (u.dec.ntaps.setWidth 32)) ∧ returns 0x06 (.word (u.dec.dph.setWidth 32)) ∧
      returns 0x07 (.word (u.dec.dcnt.setWidth 32))) ∧
    (∀ idx : BitVec 8, (0x08 ≤ idx.toNat ∧ idx.toNat ≤ 0x0F) ∨ 0x17 ≤ idx.toNat →
      (u.opState ≠ .error →
        u.rd idx = ({ u with cause := .badOperand, info := (Instr.rd idx).head, opState := .error }, none)) ∧
      (u.opState = .error → u.rd idx = (u, none)))) ∧
  (∀ (unset : Nat → ℝ) (nmax : Nat) (raw : List (Int × Int)), 3 ≤ nmax → raw.length = 3 →
    let N := numReal unset
    let configured : Registers ℝ :=
      { Registers.reset N with
        mix := { (Registers.reset N).mix.setShift N 0.25 with batchN := 3 } }
    let streaming : Registers ℝ :=
      { configured with toPipeline := ((configured.toPipeline.construct N).run N raw).1, opState := .run }
    configured.toPipeline.check N nmax = none ∧ streaming.rd 0x12 = (streaming, some (.value (-Real.pi / 2))))

/-- R107 (the spec's own inference from R103 to R105): phase continuity in the exact reals: however the stream is cut into
batches, sample t of the stream is multiplied by exactly `(cos(t * PHASE_INC) + j sin(t * PHASE_INC)) / 32767`. -/
def Obligations.PhaseIsContinuousAcrossBatches : Prop :=
  ∀ (unset : Nat → ℝ) (u₀ : Pipeline ℝ) (earlier : List (List (Int × Int))) (batch : List (Int × Int)) (i : Nat)
    (x : Int × Int),
    let N := numReal unset
    let u := u₀.construct N
    let m := (u.runBatches N earlier).1.mix
    let t : ℝ := ((earlier.flatten.length + i : Nat) : ℝ)
    u₀.mix.shiftRate ≠ 0 → (∀ b ∈ earlier, b.length ≤ u₀.mix.batchN.toNat) →
    batch.length ≤ u₀.mix.batchN.toNat → batch[i]? = some x →
      (m.run N batch).2[i]? = some
        ⟨x.1 * (Real.cos (t * u₀.mix.phaseInc) / 32767) - x.2 * (Real.sin (t * u₀.mix.phaseInc) / 32767),
         x.1 * (Real.sin (t * u₀.mix.phaseInc) / 32767) + x.2 * (Real.cos (t * u₀.mix.phaseInc) / 32767)⟩

/-- R167, property P-INV: batch-size invariance in the exact reals: two ways of cutting the same samples into batches of at most
`BATCH_N` give the same output and leave the same state of every unit. -/
def Obligations.BatchSplitInvarianceInTheExactReals : Prop :=
  ∀ (unset : Nat → ℝ) (u₀ : Pipeline ℝ) (bs cs : List (List (Int × Int))),
    let N := numReal unset
    let u := u₀.construct N
    bs.flatten = cs.flatten → (∀ b ∈ bs, b.length ≤ u₀.mix.batchN.toNat) → (∀ c ∈ cs, c.length ≤ u₀.mix.batchN.toNat) →
      u.runBatches N bs = u.runBatches N cs

/-- R145 (the spec's own inference from R142): a complex tone of w radians per sample gives 0 and then w * GAIN for ever. -/
def Obligations.ToneGivesItsFrequency : Prop :=
  ∀ (unset : Nat → ℝ) (u : DscUnit ℝ) (a w w₀ : ℝ) (n : Nat), u.havePrev = false → 0 < a → -Real.pi < w → w ≤ Real.pi →
    (u.run (numReal unset)
      ((List.range (n + 1)).map fun i => ⟨a * Real.cos (w * i + w₀), a * Real.sin (w * i + w₀)⟩)).2 =
      0 :: List.replicate n (w * u.gain)

/-- R143, R144 (R144 is the spec's own inference): in the exact reals the discriminator's output lies in (-pi * GAIN, pi *
GAIN] for a positive gain; a zero sample gives 0; opposite samples give the upper end; scaling by a positive real changes
nothing. -/
def Obligations.DiscriminatorRangeInTheExactReals : Prop :=
  ∀ (unset : Nat → ℝ) (u : DscUnit ℝ) (x : Cx ℝ),
    let N := numReal unset
    (0 < u.gain → -Real.pi * u.gain < (u.disc N x).2 ∧ (u.disc N x).2 ≤ Real.pi * u.gain) ∧
    (u.gain < 0 → Real.pi * u.gain ≤ (u.disc N x).2 ∧ (u.disc N x).2 < -Real.pi * u.gain) ∧
    (u.gain = 0 → (u.disc N x).2 = 0) ∧
    (x = ⟨0, 0⟩ ∨ u.prev = ⟨0, 0⟩ → (u.disc N x).2 = 0) ∧
    (u.havePrev = true → u.prev ≠ ⟨0, 0⟩ → x = ⟨-u.prev.re, -u.prev.im⟩ → (u.disc N x).2 = Real.pi * u.gain) ∧
    (∀ k : ℝ, 0 < k →
      (({ u with prev := ⟨k * u.prev.re, k * u.prev.im⟩ } : DscUnit ℝ).disc N ⟨k * x.re, k * x.im⟩).2 = (u.disc N x).2)

/-- R153: rows of the quantizer's table in the exact reals. -/
def Obligations.QuantizerTableInTheExactReals : Prop :=
  ∀ unset : Nat → ℝ,
    let q (p : QPolicy) (d : ℝ) : Int := ({ qpol := p } : QntUnit).quant (numReal unset) d
    (∀ p, q p 0 = 0 ∧ q p 1 = 32767 ∧ q p (-1) = -32767 ∧ q p (0.5 / 32767) = 1 ∧ q p (-0.5 / 32767) = -1 ∧
      q p (2.5 / 32767) = 3 ∧ q p (Real.pi / 4) = 25735) ∧
    q .wrap (32767.5 / 32767) = -32768 ∧ q .sat (32767.5 / 32767) = 32767 ∧
    q .wrap (-32768.5 / 32767) = 32767 ∧ q .sat (-32768.5 / 32767) = -32768 ∧
    q .wrap (Real.pi / 2) = -14066 ∧ q .sat (Real.pi / 2) = 32767 ∧
    q .wrap (-3 * Real.pi / 8) = 26933 ∧ q .sat (-3 * Real.pi / 8) = -32768 ∧
    q .wrap Real.pi = -28131 ∧ q .sat Real.pi = 32767

/-! ## The host (R72), and the end of a run (R215) -/

/-- R61, R72: what the host can do to the state outside power-on reset: a word at the tail of `CMD`, a byte at the tail of
`IN`, the head of `OUT` or of `RSP` removed; nothing else. (Host actions stand between commands: log 6.) -/
def Obligations.HostTouchesStreamEndsOnly : Prop :=
  ∀ s : State,
    (∀ w, hostAct (.sendWord w) s = { s with cmd := s.cmd ++ [w] }) ∧
    (∀ b, hostAct (.pushByte b) s = { s with inp := s.inp ++ [b] }) ∧
    (∀ b bs, s.out = b :: bs → hostAct .takeOut s = { s with out := bs }) ∧
    (∀ w ws, s.rsp = w :: ws → hostAct .takeRsp s = { s with rsp := ws })

/-- R89, R167, R206: the three pseudo-instructions. `STREAM T` at `BATCH_N` = n: batches of at most n samples, T samples in
all, and one `STOP` at the end. `RATES fs, fo` gives `SETM` of the quotient exactly for positive rates with a whole quotient,
and an error otherwise (that a quotient of 2^24 or more, which no `SETM` carries, is an error is the model's choice, log 11).
`SHIFTHZ f, fs` gives the one `SETSHIFT` whose operand encodes f/fs, and that quotient is what the block decodes from it when
it is a finite value (that the quotient is taken in the domain is the model's choice, log 11). -/
def Obligations.PseudoInstructionsExpand : Prop :=
  (∀ (t : Nat) (n : U24), n ≠ 0 →
    ∃ counts : List U24, asmStream t n = counts.map Instr.batch ++ [.stop] ∧
      (counts.map BitVec.toNat).sum = t ∧ (∀ c ∈ counts, 0 < c.toNat ∧ c.toNat ≤ n.toNat) ∧
      ∀ c ∈ counts.dropLast, c = n) ∧
  (∀ fs fo : Int,
    ((∃ m : U24, asmRates fs fo = some [.setm m] ∧ fs = fo * m.toNat) ↔
      0 < fs ∧ 0 < fo ∧ fo ∣ fs ∧ fs / fo < 2 ^ 24) ∧
    ((∃ m : U24, asmRates fs fo = some [.setm m] ∧ fs = fo * m.toNat) ∨ asmRates fs fo = none)) ∧
  (∀ f fs : Int,
    let quotient := Config.num.div (Config.num.ofInt f) (Config.num.ofInt fs)
    asmShiftHz f fs = [.setshift (Config.enc quotient)] ∧
    (Config.num.isFinite quotient = true → Config.dec (Config.enc quotient) = quotient))

/-- R215: a `STOP` in RUN that is the last word of `CMD` finishes the run, cleanly, if the host appends nothing more. (That no
fault is recorded in RUN is the invariant's. What follows is a list of events: log 6.) -/
def Obligations.StopFinishesTheRun : Prop :=
  ∀ s : State, s.Inv → s.opState = .run → s.cmd = [0x04000000#32] →
    ∃ t, step s = .next t ∧ t.finishedCleanly ∧ ∀ rest, appendsNothing rest → RunFinishedCleanly t rest

/-- R215, R73, R72: what the ends of a run are, over the events that follow, in which the host appends nothing more. A finished
run stays finished, and without power-on reset no register, memory or input byte changes any more; a run with `CMD` empty
in RUN stays an open stream and is not finished; a command that holds does so for ever: such a run is stuck. (That a run and what
follows are lists of events, and that a hold is a step that changes nothing, are the model's choice: log 6, log 5.) -/
def Obligations.EndedRunsStayAsTheyEnded : Prop :=
  ∀ (s : State) (rest : List Event), appendsNothing rest →
    (∀ t, RunFinished s rest → runEvents rest s = .next t → t.finished) ∧
    (.host .powerOn ∉ rest →
      (∀ t, RunFinished s rest → runEvents rest s = .next t →
        s.sameRegisters t ∧ t.inp = s.inp ∧ (∃ k, t.out = s.out.drop k) ∧ (∃ k, t.rsp = s.rsp.drop k)) ∧
      (∀ t, RunEndsWithOpenStream s rest → runEvents rest s = .next t →
        ¬ s.finished ∧ ¬ t.finished ∧ t.cmd = [] ∧ s.sameRegisters t) ∧
      (s.holds → RunStuck s rest ∧ ¬ RunFinished s rest))

/-- R167, R215: the streaming loop. (A run is a list of events, log 6.) From IDLE with a configuration that `START` accepts,
with the words of `START`, of batches of at most `BATCH_N` samples and of `STOP` in `CMD` and exactly their samples in `IN`,
so many steps of the block as there are commands finish the run cleanly: what the pipeline gives for the batches is appended
to `OUT`, and nothing is left over. -/
def Obligations.StreamingLoopEndsCleanly : Prop :=
  ∀ (s : State) (counts : List U24) (batches : List (List (Int × Int))),
    s.opState = .idle → s.cause = .noFault → s.toPipeline.check Config.num Config.nmax = none →
    (∀ n ∈ counts, n.toNat ≤ s.mix.batchN.toNat) → s.inp.length = 4 * (counts.map BitVec.toNat).sum →
    s.cmd = (streamProgram [] counts).flatMap encode →
    unpack s.inp = batches.flatten → batches.map List.length = counts.map BitVec.toNat →
      let r := (s.toPipeline.construct Config.num).runBatches Config.num batches
      ∃ t, runEvents (List.replicate (counts.length + 2) .block) s = .next t ∧ t.finishedCleanly ∧
        t.out = s.out ++ pack r.2 ∧ t.toPipeline = r.1 ∧ t.inp = [] ∧ t.resid = false ∧ t.rsp = s.rsp
end

