-- ==== Sys2Proof/Laws/State.lean ====
section
/-! SUPPORT. Laws/State.lean: for each operation on the state, one lemma per field: what the field holds afterwards. Later
proofs cite these and unfold no record update. -/

namespace Sys2Proof.Machine

/-! ### `popCmd` -/

@[simp] theorem State.popCmd_toRegisters (n : Nat) (s : State) : (s.popCmd n).toRegisters = s.toRegisters := rfl
@[simp] theorem State.popCmd_cmd (n : Nat) (s : State) : (s.popCmd n).cmd = s.cmd.drop n := rfl
@[simp] theorem State.popCmd_inp (n : Nat) (s : State) : (s.popCmd n).inp = s.inp := rfl
@[simp] theorem State.popCmd_out (n : Nat) (s : State) : (s.popCmd n).out = s.out := rfl
@[simp] theorem State.popCmd_rsp (n : Nat) (s : State) : (s.popCmd n).rsp = s.rsp := rfl

/-! ### `inPop` -/

@[simp] theorem State.inPop_toRegisters (n : Nat) (s : State) : (s.inPop n).toRegisters = s.toRegisters := rfl
@[simp] theorem State.inPop_cmd (n : Nat) (s : State) : (s.inPop n).cmd = s.cmd := rfl
@[simp] theorem State.inPop_inp (n : Nat) (s : State) : (s.inPop n).inp = s.inp.drop n := rfl
@[simp] theorem State.inPop_out (n : Nat) (s : State) : (s.inPop n).out = s.out := rfl
@[simp] theorem State.inPop_rsp (n : Nat) (s : State) : (s.inPop n).rsp = s.rsp := rfl

/-! ### `outPush` -/

@[simp] theorem State.outPush_toRegisters (bs : List Byte) (s : State) : (s.outPush bs).toRegisters = s.toRegisters := rfl
@[simp] theorem State.outPush_cmd (bs : List Byte) (s : State) : (s.outPush bs).cmd = s.cmd := rfl
@[simp] theorem State.outPush_inp (bs : List Byte) (s : State) : (s.outPush bs).inp = s.inp := rfl
@[simp] theorem State.outPush_out (bs : List Byte) (s : State) : (s.outPush bs).out = s.out ++ bs := rfl
@[simp] theorem State.outPush_rsp (bs : List Byte) (s : State) : (s.outPush bs).rsp = s.rsp := rfl

/-! ### `rspPush` -/

@[simp] theorem State.rspPush_toRegisters (ws : List Word) (s : State) : (s.rspPush ws).toRegisters = s.toRegisters := rfl
@[simp] theorem State.rspPush_cmd (ws : List Word) (s : State) : (s.rspPush ws).cmd = s.cmd := rfl
@[simp] theorem State.rspPush_inp (ws : List Word) (s : State) : (s.rspPush ws).inp = s.inp := rfl
@[simp] theorem State.rspPush_out (ws : List Word) (s : State) : (s.rspPush ws).out = s.out := rfl
@[simp] theorem State.rspPush_rsp (ws : List Word) (s : State) : (s.rspPush ws).rsp = s.rsp ++ ws := rfl

/-! ### `putFirst` -/

@[simp] theorem State.putFirst_toRegisters (ws : List Word) (s : State) : (s.putFirst ws).toRegisters = s.toRegisters := rfl
@[simp] theorem State.putFirst_cmd (ws : List Word) (s : State) : (s.putFirst ws).cmd = ws ++ s.cmd := rfl
@[simp] theorem State.putFirst_inp (ws : List Word) (s : State) : (s.putFirst ws).inp = s.inp := rfl
@[simp] theorem State.putFirst_out (ws : List Word) (s : State) : (s.putFirst ws).out = s.out := rfl
@[simp] theorem State.putFirst_rsp (ws : List Word) (s : State) : (s.putFirst ws).rsp = s.rsp := rfl

/-! ### `clearFlags` -/

@[simp] theorem State.clearFlags_toPipeline (s : State) : (s.clearFlags).toPipeline = s.toPipeline := rfl
@[simp] theorem State.clearFlags_opState (s : State) : (s.clearFlags).opState = s.opState := rfl
@[simp] theorem State.clearFlags_cause (s : State) : (s.clearFlags).cause = s.cause := rfl
@[simp] theorem State.clearFlags_info (s : State) : (s.clearFlags).info = s.info := rfl
@[simp] theorem State.clearFlags_short (s : State) : (s.clearFlags).short = false := rfl
@[simp] theorem State.clearFlags_eos (s : State) : (s.clearFlags).eos = false := rfl
@[simp] theorem State.clearFlags_resid (s : State) : (s.clearFlags).resid = false := rfl
@[simp] theorem State.clearFlags_cmd (s : State) : (s.clearFlags).cmd = s.cmd := rfl
@[simp] theorem State.clearFlags_inp (s : State) : (s.clearFlags).inp = s.inp := rfl
@[simp] theorem State.clearFlags_out (s : State) : (s.clearFlags).out = s.out := rfl
@[simp] theorem State.clearFlags_rsp (s : State) : (s.clearFlags).rsp = s.rsp := rfl

/-! ### `markShort` -/

@[simp] theorem State.markShort_toPipeline (n : U24) (s : State) : (s.markShort n).toPipeline = s.toPipeline := rfl
@[simp] theorem State.markShort_opState (n : U24) (s : State) : (s.markShort n).opState = s.opState := rfl
@[simp] theorem State.markShort_cause (n : U24) (s : State) : (s.markShort n).cause = s.cause := rfl
@[simp] theorem State.markShort_info (n : U24) (s : State) : (s.markShort n).info = s.info := rfl
@[simp] theorem State.markShort_short (n : U24) (s : State) : (s.markShort n).short = (s.short || decide (n.toNat < s.mix.batchN.toNat)) := rfl
@[simp] theorem State.markShort_eos (n : U24) (s : State) : (s.markShort n).eos = s.eos := rfl
@[simp] theorem State.markShort_resid (n : U24) (s : State) : (s.markShort n).resid = s.resid := rfl
@[simp] theorem State.markShort_cmd (n : U24) (s : State) : (s.markShort n).cmd = s.cmd := rfl
@[simp] theorem State.markShort_inp (n : U24) (s : State) : (s.markShort n).inp = s.inp := rfl
@[simp] theorem State.markShort_out (n : U24) (s : State) : (s.markShort n).out = s.out := rfl
@[simp] theorem State.markShort_rsp (n : U24) (s : State) : (s.markShort n).rsp = s.rsp := rfl

/-! ### `markEnd` -/

@[simp] theorem State.markEnd_toPipeline (r : Nat) (s : State) : (s.markEnd r).toPipeline = s.toPipeline := rfl
@[simp] theorem State.markEnd_opState (r : Nat) (s : State) : (s.markEnd r).opState = s.opState := rfl
@[simp] theorem State.markEnd_cause (r : Nat) (s : State) : (s.markEnd r).cause = s.cause := rfl
@[simp] theorem State.markEnd_info (r : Nat) (s : State) : (s.markEnd r).info = s.info := rfl
@[simp] theorem State.markEnd_short (r : Nat) (s : State) : (s.markEnd r).short = s.short := rfl
@[simp] theorem State.markEnd_eos (r : Nat) (s : State) : (s.markEnd r).eos = true := rfl
@[simp] theorem State.markEnd_resid (r : Nat) (s : State) : (s.markEnd r).resid = (s.resid || decide (0 < r)) := rfl
@[simp] theorem State.markEnd_cmd (r : Nat) (s : State) : (s.markEnd r).cmd = s.cmd := rfl
@[simp] theorem State.markEnd_inp (r : Nat) (s : State) : (s.markEnd r).inp = s.inp := rfl
@[simp] theorem State.markEnd_out (r : Nat) (s : State) : (s.markEnd r).out = s.out := rfl
@[simp] theorem State.markEnd_rsp (r : Nat) (s : State) : (s.markEnd r).rsp = s.rsp := rfl

/-! ### `raise` -/

@[simp] theorem raise_toPipeline (c : Cause) (w : Word) (s : State) : (raise c w s).toPipeline = s.toPipeline := rfl
@[simp] theorem raise_opState (c : Cause) (w : Word) (s : State) : (raise c w s).opState = .error := rfl
@[simp] theorem raise_cause (c : Cause) (w : Word) (s : State) : (raise c w s).cause = c := rfl
@[simp] theorem raise_info (c : Cause) (w : Word) (s : State) : (raise c w s).info = w := rfl
@[simp] theorem raise_short (c : Cause) (w : Word) (s : State) : (raise c w s).short = s.short := rfl
@[simp] theorem raise_eos (c : Cause) (w : Word) (s : State) : (raise c w s).eos = s.eos := rfl
@[simp] theorem raise_resid (c : Cause) (w : Word) (s : State) : (raise c w s).resid = s.resid := rfl
@[simp] theorem raise_cmd (c : Cause) (w : Word) (s : State) : (raise c w s).cmd = s.cmd.drop 1 := rfl
@[simp] theorem raise_inp (c : Cause) (w : Word) (s : State) : (raise c w s).inp = s.inp := rfl
@[simp] theorem raise_out (c : Cause) (w : Word) (s : State) : (raise c w s).out = s.out := rfl
@[simp] theorem raise_rsp (c : Cause) (w : Word) (s : State) : (raise c w s).rsp = s.rsp := rfl

/-! ### `commandReset` -/

@[simp] theorem State.commandReset_toPipeline (s : State) : (s.commandReset).toPipeline = Pipeline.reset Config.num := rfl
@[simp] theorem State.commandReset_opState (s : State) : (s.commandReset).opState = .idle := rfl
@[simp] theorem State.commandReset_cause (s : State) : (s.commandReset).cause = .noFault := rfl
@[simp] theorem State.commandReset_info (s : State) : (s.commandReset).info = 0 := rfl
@[simp] theorem State.commandReset_short (s : State) : (s.commandReset).short = false := rfl
@[simp] theorem State.commandReset_eos (s : State) : (s.commandReset).eos = false := rfl
@[simp] theorem State.commandReset_resid (s : State) : (s.commandReset).resid = false := rfl
@[simp] theorem State.commandReset_cmd (s : State) : (s.commandReset).cmd = s.cmd := rfl
@[simp] theorem State.commandReset_inp (s : State) : (s.commandReset).inp = [] := rfl
@[simp] theorem State.commandReset_out (s : State) : (s.commandReset).out = s.out := rfl
@[simp] theorem State.commandReset_rsp (s : State) : (s.commandReset).rsp = s.rsp := rfl

/-! ### `openStream` -/

@[simp] theorem State.openStream_toPipeline (s : State) : (s.openStream).toPipeline = s.toPipeline.construct Config.num := rfl
@[simp] theorem State.openStream_opState (s : State) : (s.openStream).opState = .run := rfl
@[simp] theorem State.openStream_cause (s : State) : (s.openStream).cause = s.cause := rfl
@[simp] theorem State.openStream_info (s : State) : (s.openStream).info = s.info := rfl
@[simp] theorem State.openStream_short (s : State) : (s.openStream).short = false := rfl
@[simp] theorem State.openStream_eos (s : State) : (s.openStream).eos = false := rfl
@[simp] theorem State.openStream_resid (s : State) : (s.openStream).resid = false := rfl
@[simp] theorem State.openStream_cmd (s : State) : (s.openStream).cmd = s.cmd := rfl
@[simp] theorem State.openStream_inp (s : State) : (s.openStream).inp = s.inp := rfl
@[simp] theorem State.openStream_out (s : State) : (s.openStream).out = s.out := rfl
@[simp] theorem State.openStream_rsp (s : State) : (s.openStream).rsp = s.rsp := rfl

/-! ### `closeStream` -/

@[simp] theorem State.closeStream_toPipeline (s : State) : (s.closeStream).toPipeline = s.toPipeline := rfl
@[simp] theorem State.closeStream_opState (s : State) : (s.closeStream).opState = .idle := rfl
@[simp] theorem State.closeStream_cause (s : State) : (s.closeStream).cause = s.cause := rfl
@[simp] theorem State.closeStream_info (s : State) : (s.closeStream).info = s.info := rfl
@[simp] theorem State.closeStream_short (s : State) : (s.closeStream).short = s.short := rfl
@[simp] theorem State.closeStream_eos (s : State) : (s.closeStream).eos = true := rfl
@[simp] theorem State.closeStream_resid (s : State) : (s.closeStream).resid = (s.resid || decide (0 < s.inp.length)) := rfl
@[simp] theorem State.closeStream_cmd (s : State) : (s.closeStream).cmd = s.cmd := rfl
@[simp] theorem State.closeStream_inp (s : State) : (s.closeStream).inp = [] := by simp [State.closeStream, State.markEnd, State.inPop, State.inAvail]
@[simp] theorem State.closeStream_out (s : State) : (s.closeStream).out = s.out := rfl
@[simp] theorem State.closeStream_rsp (s : State) : (s.closeStream).rsp = s.rsp := rfl

/-! ### `processBatch` -/

@[simp] theorem State.processBatch_toPipeline (n : U24) (s : State) : (s.processBatch n).toPipeline = (s.toPipeline.run Config.num (unpack (s.inp.take (4 * n.toNat)))).1 := rfl
@[simp] theorem State.processBatch_opState (n : U24) (s : State) : (s.processBatch n).opState = s.opState := rfl
@[simp] theorem State.processBatch_cause (n : U24) (s : State) : (s.processBatch n).cause = s.cause := rfl
@[simp] theorem State.processBatch_info (n : U24) (s : State) : (s.processBatch n).info = s.info := rfl
@[simp] theorem State.processBatch_short (n : U24) (s : State) : (s.processBatch n).short = (s.short || decide (n.toNat < s.mix.batchN.toNat)) := rfl
@[simp] theorem State.processBatch_eos (n : U24) (s : State) : (s.processBatch n).eos = s.eos := rfl
@[simp] theorem State.processBatch_resid (n : U24) (s : State) : (s.processBatch n).resid = s.resid := rfl
@[simp] theorem State.processBatch_cmd (n : U24) (s : State) : (s.processBatch n).cmd = s.cmd := rfl
@[simp] theorem State.processBatch_inp (n : U24) (s : State) : (s.processBatch n).inp = s.inp.drop (4 * n.toNat) := rfl
@[simp] theorem State.processBatch_out (n : U24) (s : State) : (s.processBatch n).out = s.out ++ pack (s.toPipeline.run Config.num (unpack (s.inp.take (4 * n.toNat)))).2 := rfl
@[simp] theorem State.processBatch_rsp (n : U24) (s : State) : (s.processBatch n).rsp = s.rsp := rfl

/-- Fault entry as one update of the state (R183). -/
theorem raise_eq (c : Cause) (w : Word) (s : State) :
    raise c w s = { s with cmd := s.cmd.drop 1, cause := c, info := w, opState := .error } := rfl

/-! ### `Registers.fault` and `Registers.reset` -/

@[simp] theorem Registers.fault_toPipeline {F : Type} (c : Cause) (w : Word) (u : Registers F) : (u.fault c w).toPipeline = u.toPipeline := rfl
@[simp] theorem Registers.fault_opState {F : Type} (c : Cause) (w : Word) (u : Registers F) : (u.fault c w).opState = .error := rfl
@[simp] theorem Registers.fault_cause {F : Type} (c : Cause) (w : Word) (u : Registers F) : (u.fault c w).cause = c := rfl
@[simp] theorem Registers.fault_info {F : Type} (c : Cause) (w : Word) (u : Registers F) : (u.fault c w).info = w := rfl
@[simp] theorem Registers.fault_short {F : Type} (c : Cause) (w : Word) (u : Registers F) : (u.fault c w).short = u.short := rfl
@[simp] theorem Registers.fault_eos {F : Type} (c : Cause) (w : Word) (u : Registers F) : (u.fault c w).eos = u.eos := rfl
@[simp] theorem Registers.fault_resid {F : Type} (c : Cause) (w : Word) (u : Registers F) : (u.fault c w).resid = u.resid := rfl

@[simp] theorem Registers.reset_toPipeline {F : Type} (N : Num F) : (Registers.reset N).toPipeline = Pipeline.reset N := rfl
@[simp] theorem Registers.reset_opState {F : Type} (N : Num F) : (Registers.reset N).opState = .idle := rfl
@[simp] theorem Registers.reset_cause {F : Type} (N : Num F) : (Registers.reset N).cause = .noFault := rfl
@[simp] theorem Registers.reset_info {F : Type} (N : Num F) : (Registers.reset N).info = 0 := rfl
@[simp] theorem Registers.reset_short {F : Type} (N : Num F) : (Registers.reset N).short = false := rfl
@[simp] theorem Registers.reset_eos {F : Type} (N : Num F) : (Registers.reset N).eos = false := rfl
@[simp] theorem Registers.reset_resid {F : Type} (N : Num F) : (Registers.reset N).resid = false := rfl

/-! ### `State.reset` and `hostAct` -/

@[simp] theorem State.reset_toPipeline : State.reset.toPipeline = Pipeline.reset Config.num := rfl
@[simp] theorem State.reset_opState : State.reset.opState = .idle := rfl
@[simp] theorem State.reset_cause : State.reset.cause = .noFault := rfl
@[simp] theorem State.reset_info : State.reset.info = 0 := rfl
@[simp] theorem State.reset_short : State.reset.short = false := rfl
@[simp] theorem State.reset_eos : State.reset.eos = false := rfl
@[simp] theorem State.reset_resid : State.reset.resid = false := rfl
@[simp] theorem State.reset_cmd : State.reset.cmd = [] := rfl
@[simp] theorem State.reset_inp : State.reset.inp = [] := rfl
@[simp] theorem State.reset_out : State.reset.out = [] := rfl
@[simp] theorem State.reset_rsp : State.reset.rsp = [] := rfl

/-- The three actions of the host on a stream's end that the block does not read, and the two that it does, leave every
register alone (R72). -/
theorem hostAct_sameRegisters (a : HostAct) (s : State) (h : a ≠ .powerOn) :
    (hostAct a s).toPipeline = s.toPipeline ∧ (hostAct a s).opState = s.opState ∧ (hostAct a s).cause = s.cause ∧
      (hostAct a s).info = s.info ∧ (hostAct a s).short = s.short ∧ (hostAct a s).eos = s.eos ∧
      (hostAct a s).resid = s.resid := by
  cases a <;> first | exact absurd rfl h | exact ⟨rfl, rfl, rfl, rfl, rfl, rfl, rfl⟩

@[simp] theorem hostAct_powerOn (s : State) : hostAct .powerOn s = State.reset := rfl

end Sys2Proof.Machine
end

