-- ==== Sys2Proof/Laws/Ops.lean ====
section
/-! SUPPORT. Laws/Ops.lean: for each shared operation, everything it can do, said once. -/

namespace Sys2Proof.Machine

/-! ### Which state admits which command (R182) -/

theorem admission_eq_ok {st : OpState} {op : Op} :
    admission st op = .ok ↔
      op = .nop ∨ op = .rst ∨ op = .rd ∨ (op = .start ∧ st = .idle) ∨ (op = .batch ∧ st = .run) ∨
        (op = .stop ∧ st = .run) ∨ (Op.configures op = true ∧ st = .idle) := by
  cases op <;> cases st <;> decide

theorem admission_eq_badState {st : OpState} {op : Op} :
    admission st op = .badState ↔
      (op = .start ∧ st = .run) ∨ (op = .batch ∧ st = .idle) ∨ (op = .stop ∧ st = .idle) ∨
        (Op.configures op = true ∧ st = .run) := by
  cases op <;> cases st <;> decide

theorem admission_eq_dropped {st : OpState} {op : Op} :
    admission st op = .dropped ↔ st = .error ∧ op ≠ .nop ∧ op ≠ .rst ∧ op ≠ .rd := by
  cases op <;> cases st <;> decide

/-- What `gated` can do. -/
theorem gated_cases {op : Op} {w : Word} {s : State} {body : State → Result} {r : Result}
    (h : gated op w s body = r) :
    (admission s.opState op = .ok ∧ body s = r) ∨
      (admission s.opState op = .badState ∧ r = .next (raise .badState w s)) ∨
      (admission s.opState op = .dropped ∧ r = .next (s.popCmd 1)) := by
  unfold gated at h
  split at h
  · exact .inl ⟨‹_›, h⟩
  · exact .inr (.inl ⟨‹_›, h.symm⟩)
  · exact .inr (.inr ⟨‹_›, h.symm⟩)

theorem gated_ok {op : Op} {w : Word} {s : State} {body : State → Result} (h : admission s.opState op = .ok) :
    gated op w s body = body s := by simp [gated, h]

theorem gated_badState {op : Op} {w : Word} {s : State} {body : State → Result}
    (h : admission s.opState op = .badState) : gated op w s body = .next (raise .badState w s) := by simp [gated, h]

theorem gated_dropped {op : Op} {w : Word} {s : State} {body : State → Result}
    (h : admission s.opState op = .dropped) : gated op w s body = .next (s.popCmd 1) := by simp [gated, h]

/-- A command whose body always answers a next state always answers one. -/
theorem gated_next {op : Op} {w : Word} {s : State} {body : State → Result} (h : ∃ t, body s = .next t) :
    ∃ t, gated op w s body = .next t := by
  unfold gated
  split
  · exact h
  · exact ⟨_, rfl⟩
  · exact ⟨_, rfl⟩

/-! ### Reads of the registers (R166) -/

/-- What a read of a register can do, in any domain. -/
theorem rd_cases {F : Type} (idx : BitVec 8) (u : Registers F) :
    (∃ r, regAt idx = some r ∧ u.rd idx = (u, some (r.read u))) ∨
      (regAt idx = none ∧ u.opState = .error ∧ u.rd idx = (u, none)) ∨
      (regAt idx = none ∧ u.opState ≠ .error ∧ u.rd idx = (u.fault .badOperand (Instr.rd idx).head, none)) := by
  unfold Registers.rd
  split
  · exact .inl ⟨_, ‹_›, rfl⟩
  · split
    · exact .inr (.inl ⟨‹_›, ‹_›, rfl⟩)
    all_goals exact .inr (.inr ⟨‹_›, by simp [*], rfl⟩)

/-! ### Reads of the word memories -/

section Memory

variable {F : Type} (N : Num F)

theorem readWord_of_lt {mem : List F} {i : Nat} (h : i < mem.length) : readWord N mem i = mem[i] := by
  simp [readWord, h]

theorem readPair_of_lt {mem : List (Cx F)} {i : Nat} (h : i < mem.length) : readPair N mem i = mem[i] := by
  simp [readPair, h]

/-- A read of a word that holds a value does not depend on what an empty word would give. -/
theorem readWord_unset {mem : List F} {i : Nat} (e : Nat → F) (h : i < mem.length) :
    readWord { N with unset := e } mem i = readWord N mem i := by
  simp [readWord, h]

theorem readPair_unset {mem : List (Cx F)} {i : Nat} (e : Nat → F) (h : i < mem.length) :
    readPair { N with unset := e } mem i = readPair N mem i := by
  simp [readPair, h]

end Memory

/-! ### Samples and bytes (R63, R64) -/

theorem pack_nil : pack [] = [] := rfl

theorem pack_cons (q : Int) (qs : List Int) :
    pack (q :: qs) = (BitVec.ofInt 16 q).extractLsb' 0 8 :: (BitVec.ofInt 16 q).extractLsb' 8 8 :: pack qs := rfl

theorem pack_append (qs rs : List Int) : pack (qs ++ rs) = pack qs ++ pack rs := by
  simp [pack]

theorem pack_length (qs : List Int) : (pack qs).length = 2 * qs.length := by
  induction qs with
  | nil => rfl
  | cons q qs ih => rw [pack_cons]; simp [ih]; omega

theorem unpack_length : ∀ bs : List Byte, (unpack bs).length = bs.length / 4
  | [] => rfl
  | [_] => by simp [unpack]
  | [_, _] => by simp [unpack]
  | [_, _, _] => by simp [unpack]
  | _ :: _ :: _ :: _ :: bs => by simp [unpack, unpack_length bs]; omega

/-- Whole samples first: unpacking goes sample by sample. -/
theorem unpack_append : ∀ (as bs : List Byte), as.length % 4 = 0 → unpack (as ++ bs) = unpack as ++ unpack bs
  | [], _, _ => rfl
  | [_], _, h => by simp at h
  | [_, _], _, h => by simp at h
  | [_, _, _], _, h => by simp at h
  | _ :: _ :: _ :: _ :: as, bs, h => by
    have h' : as.length % 4 = 0 := by simp at h; omega
    simp [unpack, unpack_append as bs h']

/-- The samples that `BATCH n` takes are `n` (R163). -/
theorem unpack_take_length {n : Nat} {bs : List Byte} (h : 4 * n ≤ bs.length) :
    (unpack (bs.take (4 * n))).length = n := by
  rw [unpack_length, List.length_take]; omega

end Sys2Proof.Machine
end

