-- ==== Sys2Proof/Laws/Decode.lean ====
section
/-! SUPPORT. Laws/Decode.lean: the opcode map and the head word, and the opcode table's numbering of a command's bits. -/

namespace Sys2Proof

/-- The bits of a head word: the immediate below bit 24, the opcode above (R80). -/
theorem headWord_getLsbD (c : BitVec 8) (imm : U24) (i : Nat) :
    (headWord c imm).getLsbD i = if i < 24 then imm.getLsbD i else c.getLsbD (i - 24) :=
  BitVec.getLsbD_append.trans (by simp)

@[simp] theorem headWord_imm (c : BitVec 8) (imm : U24) : (headWord c imm).extractLsb' 0 24 = imm := by
  apply BitVec.eq_of_getLsbD_eq
  intro i hi
  rw [BitVec.getLsbD_extractLsb', headWord_getLsbD]
  simp [hi]

@[simp] theorem headWord_code (c : BitVec 8) (imm : U24) : (headWord c imm).extractLsb' 24 8 = c := by
  apply BitVec.eq_of_getLsbD_eq
  intro i hi
  rw [BitVec.getLsbD_extractLsb', headWord_getLsbD]
  simp [hi]

/-- Every word is the head word of its two fields (R80). -/
theorem headWord_fields (w : Word) : headWord (w.extractLsb' 24 8) (w.extractLsb' 0 24) = w := by
  apply BitVec.eq_of_getLsbD_eq
  intro i hi
  rw [headWord_getLsbD, BitVec.getLsbD_extractLsb', BitVec.getLsbD_extractLsb']
  split
  · simp [*]
  · simp [show i - 24 < 8 by omega, show 24 + (i - 24) = i by omega]

/-- A head word matches a row when its opcode and its immediate both do. -/
theorem headWord_matches (c mc pc : BitVec 8) (imm mi pi : U24) :
    (headWord c imm &&& headWord mc mi == headWord pc pi) = ((c &&& mc == pc) && (imm &&& mi == pi)) := by
  have h : headWord c imm &&& headWord mc mi = headWord (c &&& mc) (imm &&& mi) := BitVec.and_append
  rw [h, Bool.eq_iff_iff]
  simp only [beq_iff_eq, Bool.and_eq_true]
  constructor
  · intro h
    exact ⟨by simpa using congrArg (BitVec.extractLsb' 24 8) h, by simpa using congrArg (BitVec.extractLsb' 0 24) h⟩
  · rintro ⟨h₁, h₂⟩; rw [h₁, h₂]

/-- The row of a command: its opcode, and the bits of the immediate that must be zero (R82). -/
def Op.mustBeZero : Op → U24
  | .nop | .rst | .start | .stop | .setshift | .setgain => 0xFFFFFF#24
  | .rd => 0xFFFF00#24
  | .setqpol => 0xFFFFFE#24
  | .batch | .setn | .setm | .setdph | .ldtaps => 0#24

/-- The opcode map of R84 is the table of opcodes and must-be-zero bits. -/
theorem opcodeTable_eq :
    opcodeTable = [Op.nop, .rst, .start, .batch, .stop, .rd, .setshift, .setn, .setm, .setdph, .ldtaps, .setgain,
      .setqpol].map fun op => ⟨op, headWord op.code 0, headWord 0xFF#8 op.mustBeZero⟩ := by decide

theorem headWord_matches_row (c : BitVec 8) (imm : U24) (op : Op) :
    (headWord c imm &&& headWord 0xFF#8 op.mustBeZero == headWord op.code 0) =
      ((c == op.code) && (imm &&& op.mustBeZero == 0)) := by
  rw [headWord_matches]
  congr 2
  exact BitVec.and_allOnes

/-- Decoding a head word by its fields. -/
theorem decodeHead_headWord (c : BitVec 8) (imm : U24) :
    decodeHead (headWord c imm) =
      ([Op.nop, .rst, .start, .batch, .stop, .rd, .setshift, .setn, .setm, .setdph, .ldtaps, .setgain,
        .setqpol].find? fun op => (c == op.code) && (imm &&& op.mustBeZero == 0)).map fun op => ⟨op, imm⟩ := by
  unfold decodeHead
  rw [opcodeTable_eq, List.find?_map]
  simp only [Function.comp_def, headWord_matches_row, headWord_imm, Option.map_map]

/-- The opcode and the must-be-zero bits give the command back. -/
theorem decodeHead_of_mustBeZero (op : Op) (imm : U24) (h : imm &&& op.mustBeZero = 0) :
    decodeHead (headWord op.code imm) = some ⟨op, imm⟩ := by
  rw [decodeHead_headWord]
  cases op <;> simp_all [Op.code]

/-- A decoded head word spells that command and no other: its opcode, and zeros where zeros must be. -/
theorem decodeHead_eq_some {w : Word} {h : Head} (hd : decodeHead w = some h) :
    w = h.word ∧ h.imm &&& h.op.mustBeZero = 0 := by
  rw [← headWord_fields w, decodeHead_headWord, Option.map_eq_some_iff] at hd
  obtain ⟨op, hf, rfl⟩ := hd
  have hp := List.find?_some hf
  simp only [Bool.and_eq_true, beq_iff_eq] at hp
  exact ⟨by rw [Head.word, ← hp.1, headWord_fields], hp.2⟩

/-- The immediate of a command has zeros where zeros must be (R82). -/
theorem Instr.imm_mustBeZero (i : Instr) : i.imm &&& i.op.mustBeZero = 0 := by
  cases i with
  | rd idx =>
    apply BitVec.eq_of_getLsbD_eq
    intro k hk
    simp only [Instr.imm, Instr.op, Op.mustBeZero, BitVec.getLsbD_and, BitVec.getLsbD_setWidth]
    by_cases h8 : k < 8
    · have : (0xFFFF00#24).getLsbD k = false := by
        have : ∀ k < 8, (0xFFFF00#24).getLsbD k = false := by decide
        exact this k h8
      simp [this]
    · simp [BitVec.getLsbD_of_ge idx k (by omega)]
  | setqpol p => cases p <;> decide
  | _ => simp [Instr.imm, Instr.op, Op.mustBeZero]

/-- The words of an operand are as many as an `F` value takes (R81). -/
@[simp] theorem splitOperand_length (b : FBits) : (splitOperand b).length = Config.numWords := by
  simp [splitOperand]

/-- So many words make a number of so many bits. -/
theorem joinWords_lt : ∀ ws : List Word, joinWords ws < 2 ^ (32 * ws.length)
  | [] => by simp [joinWords]
  | w :: ws => by
    have := joinWords_lt ws
    have hw := w.isLt
    simp only [joinWords, List.length_cons]
    rw [show 32 * (ws.length + 1) = 32 + 32 * ws.length by ring, pow_add]
    nlinarith

/-- The words of a number, from word `k` on, joined again. -/
theorem joinWords_range (n : Nat) (x : Nat) : ∀ k, joinWords ((List.range' k n).map fun i => BitVec.ofNat 32 (x >>> (32 * i))) = (x >>> (32 * k)) % 2 ^ (32 * n) := by
  induction n with
  | zero => intro k; simp [joinWords, Nat.mod_one]
  | succ n ih =>
    intro k
    simp only [List.range'_succ, List.map_cons, joinWords, ih, BitVec.toNat_ofNat]
    rw [show 32 * (k+1) = 32 * k + 32 by ring, Nat.shiftRight_add]
    generalize x >>> (32 * k) = y
    rw [Nat.shiftRight_eq_div_pow, show 32 * (n+1) = 32 + 32 * n by ring, pow_add, Nat.mod_mul]

/-- An operand is made of its own words (R83). -/
theorem joinOperand_splitOperand (b : FBits) : joinOperand (splitOperand b) = b := by
  have h : splitOperand b = (List.range' 0 Config.numWords).map fun i => BitVec.ofNat 32 (b.toNat >>> (32 * i)) := by
    rw [splitOperand, List.range_eq_range']
    apply List.map_congr_left
    intro i _
    apply BitVec.eq_of_toNat_eq
    simp [BitVec.extractLsb'_toNat]
  rw [joinOperand, h, joinWords_range]
  apply BitVec.eq_of_toNat_eq
  have := b.isLt
  rw [BitVec.toNat_ofNat]
  simp only [Nat.mul_zero, Nat.shiftRight_zero]
  rw [show (2 ^ Config.numW) = 2 ^ (32 * Config.numWords) from rfl, Nat.mod_mod]
  exact Nat.mod_eq_of_lt this

/-- So many words are the words of the operand they make (R83). -/
theorem splitOperand_joinOperand (ws : List Word) (h : ws.length = Config.numWords) : splitOperand (joinOperand ws) = ws := by
  have key : ∀ (ws : List Word) (k : Nat) (hk : k < ws.length), BitVec.ofNat 32 (joinWords ws >>> (32 * k)) = ws[k] := by
    intro ws
    induction ws with
    | nil => intro k hk; simp at hk
    | cons w ws ih =>
      intro k hk
      cases k with
      | zero =>
        simp only [joinWords, Nat.mul_zero, Nat.shiftRight_zero, List.getElem_cons_zero]
        apply BitVec.eq_of_toNat_eq; simp [Nat.add_mul_mod_self_left]; exact w.isLt
      | succ k =>
        simp only [joinWords, List.getElem_cons_succ]
        rw [← ih k (by simpa using hk)]
        rw [show 32 * (k+1) = 32 + 32 * k by ring, Nat.shiftRight_add]
        congr 2
        rw [Nat.shiftRight_eq_div_pow]
        have := w.isLt
        omega
  apply List.ext_getElem
  · simp [h]
  · intro i h1 h2
    simp only [splitOperand, List.getElem_map, List.getElem_range]
    rw [← key ws i h2]
    apply BitVec.eq_of_toNat_eq
    have := joinWords_lt ws
    rw [h] at this
    rw [BitVec.extractLsb'_toNat, joinOperand, BitVec.toNat_ofNat, BitVec.toNat_ofNat]
    rw [Nat.mod_eq_of_lt (show joinWords ws < 2 ^ Config.numW from this)]

/-- The operands of `LDTAPS` are made of their own words, in order (R81). -/
theorem takeOperands_flatMap : ∀ h : List FBits, takeOperands h.length (h.flatMap splitOperand) = h
  | [] => rfl
  | b :: h => by
    have e1 : List.take Config.numWords (splitOperand b ++ h.flatMap splitOperand) = splitOperand b := by
      rw [List.take_append_of_le_length (by simp)]; exact List.take_of_length_le (by simp)
    have e2 : List.drop Config.numWords (splitOperand b ++ h.flatMap splitOperand) = h.flatMap splitOperand := by
      rw [List.drop_append_of_le_length (by simp), List.drop_of_length_le (by simp)]; rfl
    simp only [List.flatMap_cons, List.length_cons, takeOperands, e1, e2, joinOperand_splitOperand, takeOperands_flatMap h]

/-- The words behind `LDTAPS` are the words of the operands they make (R81). -/
theorem flatMap_takeOperands : ∀ (n : Nat) (ws : List Word), ws.length = Config.numWords * n →
    (takeOperands n ws).flatMap splitOperand = ws ∧ (takeOperands n ws).length = n
  | 0, ws, h => by simp at h; subst h; simp [takeOperands]
  | n + 1, ws, h => by
    rw [Nat.mul_add, Nat.mul_one] at h
    obtain ⟨i1, i2⟩ := flatMap_takeOperands n (ws.drop Config.numWords) (by simp; omega)
    simp only [takeOperands, List.flatMap_cons, List.length_cons, i1, i2, and_true]
    rw [splitOperand_joinOperand _ (by simp; omega), List.take_append_drop]

/-- The number of operands taken. -/
@[simp] theorem takeOperands_length : ∀ (n : Nat) (ws : List Word), (takeOperands n ws).length = n
  | 0, _ => rfl
  | n + 1, ws => by simp [takeOperands, takeOperands_length n]

/-- With must-be-zero bits only at and above bit 8, the immediate is its low byte. -/
theorem imm_of_rd {imm : U24} (h : imm &&& 0xFFFF00#24 = 0) : (imm.extractLsb' 0 8).setWidth 24 = imm := by
  apply BitVec.eq_of_getLsbD_eq
  intro k hk
  by_cases h8 : k < 8
  · simp [h8, hk]
  · have h2 : ∀ k < 24, ¬ k < 8 → (0xFFFF00#24).getLsbD k = true := by decide
    have := congrArg (fun b => b.getLsbD k) h
    simp only [BitVec.getLsbD_and, h2 k hk h8, Bool.and_true] at this
    rw [this]
    simp [h8]

/-- With must-be-zero bits at and above bit 1, the immediate is 0 or 1. -/
theorem imm_of_setqpol {imm : U24} (h : imm &&& 0xFFFFFE#24 = 0) : imm = if imm.getLsbD 0 then 1#24 else 0#24 := by
  apply BitVec.eq_of_getLsbD_eq
  intro k hk
  by_cases h0 : k = 0
  · subst h0; cases imm.getLsbD 0 <;> simp
  · have h2 : ∀ k < 24, ¬ k = 0 → (0xFFFFFE#24).getLsbD k = true := by decide
    have h3 : ∀ k < 24, ¬ k = 0 → (1#24).getLsbD k = false := by decide
    have h4 : imm.getLsbD k = (0#24).getLsbD k := by
      have := congrArg (fun b => b.getLsbD k) h
      simp only [BitVec.getLsbD_and, h2 k hk h0, Bool.and_true] at this
      exact this
    rw [h4]
    split
    · simp [h3 k hk h0]
    · rfl

theorem imm_of_mbz_all {imm : U24} (h : imm &&& 0xFFFFFF#24 = 0) : imm = 0 := by
  rwa [show (0xFFFFFF#24) = BitVec.allOnes 24 by decide, BitVec.and_allOnes] at h

/-- The command assembled from a decoded head word and its operand words has that head word (R82). -/
theorem head_assemble (h : Head) (ws : List Word) (hz : h.imm &&& h.op.mustBeZero = 0)
    (hl : ws.length = h.operandWords) : (h.assemble ws).head = h.word := by
  obtain ⟨op, imm⟩ := h
  cases op <;> simp only [Op.mustBeZero] at hz <;>
    simp only [Head.assemble, Instr.head, Instr.op, Instr.imm, Head.word, takeOperands_length]
  case nop | rst | start | stop | setshift | setgain => rw [imm_of_mbz_all hz]
  case rd => rw [imm_of_rd hz]
  case ldtaps => simp
  case setqpol =>
    have := imm_of_setqpol hz
    cases h : imm.getLsbD 0 <;> rw [h] at this
    · simp only [Bool.false_eq_true, if_false] at this ⊢; rw [this]; rfl
    · simp only [if_true] at this ⊢; rw [this]; rfl

@[simp] theorem tableOperands_length (nbits w n : Nat) : (tableOperands nbits w n).length = n := by
  simp [tableOperands]

/-- `decodeTableWord` is the decoder's answer on the words that the opcode table's numbering stands for. -/
theorem decodeTableWord_eq_decode (nbits w : Nat) :
    decodeTableWord nbits w = (decode (tableLayout nbits w)).toOption.map Prod.fst := by
  unfold decodeTableWord tableLayout
  cases hd : decodeHead (tableWord nbits w 0) with
  | none => simp [decode, hd, Except.toOption]
  | some h =>
    have : List.take h.operandWords (tableOperands nbits w h.operandWords) = tableOperands nbits w h.operandWords :=
      List.take_of_length_le (by simp)
    simp [decode, hd, Except.toOption, this]

end Sys2Proof
end

