-- ==== Sys2Proof/Laws/Exec.lean ====
section
/-! SUPPORT. Laws/Exec.lean: everything that a command can do to the state, said once (`Effect`), and everything that a step of
the block can do (`step_cases`). Proofs about all commands split on these and unfold no meaning. -/

namespace Sys2Proof.Machine

/-- `Effect s i t`: in state `s` the command `i`, at the head of `CMD`, leads to `t`. -/
inductive Effect (s : State) : Instr → State → Prop
  | fault {i : Instr} (c : Cause) (hc : c ≠ .noFault) (hs : s.opState ≠ .error) : Effect s i (raise c i.head s)
  | dropped {i : Instr} (hs : s.opState = .error) (hn : i.op ≠ .nop) (hr : i.op ≠ .rst)
      (hd : ∀ idx r, i = .rd idx → regAt idx ≠ some r) : Effect s i (s.popCmd 1)
  | nop : Effect s .nop (s.popCmd 1)
  | rst : Effect s .rst (s.popCmd 1).commandReset
  | start (hs : s.opState = .idle) (hk : s.toPipeline.check Config.num Config.nmax = none) :
      Effect s .start (s.popCmd 1).openStream
  | batch (n : U24) (hs : s.opState = .run) (hn : n.toNat ≤ s.mix.batchN.toNat) (hi : 4 * n.toNat ≤ s.inp.length) :
      Effect s (.batch n) ((s.popCmd 1).processBatch n)
  | hold (n : U24) (hs : s.opState = .run) (hn : n.toNat ≤ s.mix.batchN.toNat) (hi : s.inp.length < 4 * n.toNat) :
      Effect s (.batch n) s
  | stop (hs : s.opState = .run) : Effect s .stop (s.popCmd 1).closeStream
  | rd (idx : BitVec 8) (r : Reg) (hr : regAt idx = some r) : Effect s (.rd idx) ((s.popCmd 1).rspPush (r.words s))
  | setshift (r : FBits) (hs : s.opState = .idle) :
      Effect s (.setshift r)
        { s.popCmd (Instr.setshift r).length with mix := s.mix.setShift Config.num (operandValue r) }
  | setn (n : U24) (hs : s.opState = .idle) :
      Effect s (.setn n) { s.popCmd (Instr.setn n).length with mix := { s.mix with batchN := n } }
  | setm (m : U24) (hs : s.opState = .idle) :
      Effect s (.setm m) { s.popCmd (Instr.setm m).length with dec := { s.dec with decimM := m } }
  | setdph (p : U24) (hs : s.opState = .idle) :
      Effect s (.setdph p) { s.popCmd (Instr.setdph p).length with dec := { s.dec with dph := p } }
  | ldtaps (h : List FBits) (hs : s.opState = .idle) (hl : h.length ≤ Config.lmax) :
      Effect s (.ldtaps h) { s.popCmd (Instr.ldtaps h).length with
        dec := { s.dec with coef := h.map operandValue, ntaps := BitVec.ofNat 24 h.length } }
  | setgain (g : FBits) (hs : s.opState = .idle) :
      Effect s (.setgain g) { s.popCmd (Instr.setgain g).length with dsc := { s.dsc with gain := operandValue g } }
  | setqpol (p : QPolicy) (hs : s.opState = .idle) :
      Effect s (.setqpol p) { s.popCmd (Instr.setqpol p).length with qnt := { s.qnt with qpol := p } }

/-- The three ways through `gated`, for a command whose body is described. -/
theorem effect_of_gated {i : Instr} {s t : State} {body : State → Result}
    (h : gated i.op i.head s body = .next t) (hd : ∀ idx, i ≠ .rd idx)
    (hb : admission s.opState i.op = .ok → body s = .next t → Effect s i t) : Effect s i t := by
  rcases gated_cases h with ⟨ha, hr⟩ | ⟨ha, hr⟩ | ⟨ha, hr⟩
  · exact hb ha hr
  · obtain rfl : t = _ := by simpa using hr
    refine .fault .badState (by decide) fun he => ?_
    rw [he, admission_eq_badState] at ha
    simp at ha
  · obtain rfl : t = _ := by simpa using hr
    rw [admission_eq_dropped] at ha
    exact .dropped ha.1 ha.2.1 ha.2.2.1 fun idx r hi => absurd hi (hd idx)

theorem effect_nop {s t : State} (h : execNop s = .next t) : Effect s .nop t :=
  effect_of_gated (i := .nop) h (by simp) fun _ hb => by
    obtain rfl : _ = t := by simpa using hb
    exact .nop

theorem effect_rst {s t : State} (h : execRst s = .next t) : Effect s .rst t :=
  effect_of_gated (i := .rst) h (by simp) fun _ hb => by
    obtain rfl : _ = t := by simpa using hb
    exact .rst

/-- A check that fails names a fault. -/
theorem check_ne_noFault {F : Type} {N : Num F} {nmax : Nat} {u : Pipeline F} {c : Cause}
    (h : u.check N nmax = some c) : c ≠ .noFault := by
  rintro rfl
  unfold Pipeline.check at h
  repeat' split at h
  all_goals simp at h

theorem effect_start {s t : State} (h : execStart s = .next t) : Effect s .start t :=
  effect_of_gated (i := .start) h (by simp) fun ha hb => by
    have hs : s.opState = .idle := by simpa [admission_eq_ok, Instr.op, Op.configures] using ha
    split at hb
    · obtain rfl : _ = t := by simpa using hb
      exact .fault _ (check_ne_noFault ‹_›) (by simp [hs])
    · obtain rfl : _ = t := by simpa using hb
      exact .start hs ‹_›

theorem effect_batch {n : U24} {s t : State} (h : execBatch n s = .next t) : Effect s (.batch n) t :=
  effect_of_gated (i := .batch n) h (by simp) fun ha hb => by
    have hs : s.opState = .run := by simpa [admission_eq_ok, Instr.op, Op.configures] using ha
    split at hb
    · obtain rfl : _ = t := by simpa using hb
      exact .fault _ (by decide) (by simp [hs])
    · split at hb
      · obtain rfl : _ = t := by simpa using hb
        exact .hold n hs (by omega) ‹_›
      · obtain rfl : _ = t := by simpa using hb
        exact .batch n hs (by omega) (by rename_i h2; simp only [State.inAvail] at h2; omega)

theorem effect_stop {s t : State} (h : execStop s = .next t) : Effect s .stop t :=
  effect_of_gated (i := .stop) h (by simp) fun ha hb => by
    obtain rfl : _ = t := by simpa using hb
    exact .stop (by simpa [admission_eq_ok, Instr.op, Op.configures] using ha)

theorem effect_rd {idx : BitVec 8} {s t : State} (h : execRd idx s = .next t) : Effect s (.rd idx) t := by
  have ha : admission s.opState .rd = .ok := by simp [admission_eq_ok]
  rw [execRd, gated_ok ha] at h
  rcases rd_cases idx s.toRegisters with ⟨r, hr, e⟩ | ⟨hr, hs, e⟩ | ⟨hr, hs, e⟩ <;>
    simp only [e, Option.elim, Host.Outcome.next.injEq] at h <;> subst h
  · exact .rd idx r hr
  · rw [State.rspPush, List.append_nil]
    exact .dropped hs (by simp [Instr.op]) (by simp [Instr.op])
      fun idx' r hi => by cases hi; simp [hr]
  · rw [State.rspPush, List.append_nil]
    exact .fault .badOperand (by decide) hs

theorem effect_setshift {r : FBits} {s t : State} (h : execSetshift r s = .next t) : Effect s (.setshift r) t :=
  effect_of_gated (i := .setshift r) h (by simp) fun ha hb => by
    obtain rfl : _ = t := by simpa using hb
    exact .setshift r (by simpa [admission_eq_ok, Instr.op, Op.configures] using ha)

theorem effect_setn {n : U24} {s t : State} (h : execSetn n s = .next t) : Effect s (.setn n) t :=
  effect_of_gated (i := .setn n) h (by simp) fun ha hb => by
    obtain rfl : _ = t := by simpa using hb
    exact .setn n (by simpa [admission_eq_ok, Instr.op, Op.configures] using ha)

theorem effect_setm {m : U24} {s t : State} (h : execSetm m s = .next t) : Effect s (.setm m) t :=
  effect_of_gated (i := .setm m) h (by simp) fun ha hb => by
    obtain rfl : _ = t := by simpa using hb
    exact .setm m (by simpa [admission_eq_ok, Instr.op, Op.configures] using ha)

theorem effect_setdph {p : U24} {s t : State} (h : execSetdph p s = .next t) : Effect s (.setdph p) t :=
  effect_of_gated (i := .setdph p) h (by simp) fun ha hb => by
    obtain rfl : _ = t := by simpa using hb
    exact .setdph p (by simpa [admission_eq_ok, Instr.op, Op.configures] using ha)

theorem effect_ldtaps {l : List FBits} {s t : State} (h : execLdtaps l s = .next t) : Effect s (.ldtaps l) t :=
  effect_of_gated (i := .ldtaps l) h (by simp) fun ha hb => by
    have hs : s.opState = .idle := by simpa [admission_eq_ok, Instr.op, Op.configures] using ha
    split at hb
    · obtain rfl : _ = t := by simpa using hb
      exact .fault _ (by decide) (by simp [hs])
    · rename_i h2
      obtain rfl : _ = t := by simpa using hb
      exact .ldtaps l hs (by simpa [tooManyTaps] using h2)

theorem effect_setgain {g : FBits} {s t : State} (h : execSetgain g s = .next t) : Effect s (.setgain g) t :=
  effect_of_gated (i := .setgain g) h (by simp) fun ha hb => by
    obtain rfl : _ = t := by simpa using hb
    exact .setgain g (by simpa [admission_eq_ok, Instr.op, Op.configures] using ha)

theorem effect_setqpol {p : QPolicy} {s t : State} (h : execSetqpol p s = .next t) : Effect s (.setqpol p) t :=
  effect_of_gated (i := .setqpol p) h (by simp) fun ha hb => by
    obtain rfl : _ = t := by simpa using hb
    exact .setqpol p (by simpa [admission_eq_ok, Instr.op, Op.configures] using ha)

/-- Everything that a command can do. -/
theorem effect_of_exec {i : Instr} {s t : State} (h : exec i s = .next t) : Effect s i t := by
  cases i with
  | nop => exact effect_nop h
  | rst => exact effect_rst h
  | start => exact effect_start h
  | batch n => exact effect_batch h
  | stop => exact effect_stop h
  | rd idx => exact effect_rd h
  | setshift r => exact effect_setshift h
  | setn n => exact effect_setn h
  | setm m => exact effect_setm h
  | setdph p => exact effect_setdph h
  | ldtaps l => exact effect_ldtaps h
  | setgain g => exact effect_setgain h
  | setqpol p => exact effect_setqpol h

/-- Everything that a step of the block can do. -/
theorem step_cases {s t : State} (h : step s = .next t) :
    (s.cmd = [] ∧ t = s) ∨
      (∃ w rest, s.cmd = w :: rest ∧ decodeHead w = none ∧
        ((s.opState = .error ∧ t = s.popCmd 1) ∨ (s.opState ≠ .error ∧ t = raise .illegalCommand w s))) ∨
      (∃ i rest rest', decode s.cmd = .ok (i, rest) ∧ s.cmd = i.head :: rest' ∧ Effect s i t) ∨
      (∃ hd rest, s.cmd = hd.word :: rest ∧ decodeHead hd.word = some hd ∧ rest.length < hd.operandWords ∧
        ((s.opState = .error ∧ t = s.popCmd 1) ∨
          (∃ c, c ≠ .noFault ∧ s.opState ≠ .error ∧ t = raise c hd.word s) ∨
          (s.opState = .idle ∧ t = s))) := by
  unfold step serve at h
  cases hc : s.cmd with
  | nil => rw [hc] at h; exact .inl ⟨rfl, by simpa [decode] using h.symm⟩
  | cons w rest =>
    refine .inr ?_
    cases hd : decodeHead w with
    | none =>
      have h' : illegalWord w s = .next t := by simpa [hc, decode, hd] using h
      refine .inl ⟨w, rest, rfl, hd, ?_⟩
      unfold illegalWord at h'
      split at h'
      · exact .inl ⟨‹_›, by simpa using h'.symm⟩
      all_goals exact .inr ⟨by simp [*], by simpa using h'.symm⟩
    | some hh =>
      obtain ⟨rfl, hz⟩ := decodeHead_eq_some hd
      by_cases hl : rest.length < hh.operandWords
      · have h' : awaitOperands hh s = .next t := by simpa [hc, decode, hd, hl] using h
        refine .inr (.inr ⟨hh, rest, rfl, hd, hl, ?_⟩)
        have hop : hh.op = .setshift ∨ hh.op = .ldtaps ∨ hh.op = .setgain := by
          unfold Head.operandWords at hl
          cases ho : hh.op <;> simp [ho] at hl ⊢
        rcases gated_cases h' with ⟨ha, hb⟩ | ⟨ha, hb⟩ | ⟨ha, hb⟩
        · have hs : s.opState = .idle := by
            rcases hop with ho | ho | ho <;> simpa [ho, admission_eq_ok, Op.configures] using ha
          split at hb
          · exact .inr (.inl ⟨.badOperand, by decide, by simp [hs], by simpa using hb.symm⟩)
          · exact .inr (.inr ⟨hs, by simpa using hb.symm⟩)
        · refine .inr (.inl ⟨.badState, by decide, fun he => ?_, by simpa using hb⟩)
          rw [he, admission_eq_badState] at ha
          simp at ha
        · exact .inl ⟨(admission_eq_dropped.1 ha).1, by simpa using hb⟩
      · have hdec : decode (hh.word :: rest) =
            .ok (hh.assemble (rest.take hh.operandWords), rest.drop hh.operandWords) := by
          simp [decode, hd, hl]
        have hlen : (rest.take hh.operandWords).length = hh.operandWords := by simp; omega
        exact .inr (.inl ⟨_, _, rest, hdec, by rw [head_assemble hh _ hz hlen],
          effect_of_exec (by simpa [hc, hdec] using h)⟩)

end Sys2Proof.Machine
end

