-- ==== Sys2Proof/Laws/Memory.lean ====
section
/-! SUPPORT. Laws/Memory.lean: the four word memories: what the units' operations on them do, and that every operation on a
memory keeps its form (`Memory.wf`). -/

namespace Sys2Proof.Machine

section Units

variable {F : Type} (N : Num F)

/-- The table build stores `BATCH_N` phases (R103). -/
@[simp] theorem tablePhases_length (inc : F) : ∀ (n : Nat) (ph : F), (tablePhases N inc n ph).length = n
  | 0, _ => rfl
  | n + 1, ph => by simp [tablePhases, tablePhases_length inc n]

/-- The length of the delay line is kept when the words in use hold values (R126). -/
theorem shiftIn_length (n : Nat) (x : Cx F) (dly : List (Cx F)) (h1 : 1 ≤ n) (h : n ≤ dly.length) :
    (shiftIn n x dly).length = dly.length := by
  simp [shiftIn]; omega

/-- What `DecPush` never writes (R126). -/
theorem push_frame (u : DecUnit F) (x : Cx F) :
    (u.push N x).1 = { u with dly := shiftIn u.ntaps.toNat x u.dly, dcnt := (u.push N x).1.dcnt, yh := (u.push N x).1.yh } := by
  simp only [DecUnit.push]; split <;> rfl

/-- What the DEC unit never writes (R126). -/
theorem pushAll_frame (u : DecUnit F) (a : List (Cx F)) :
    (u.pushAll N a).1 = { u with
      dly := (u.pushAll N a).1.dly, dcnt := (u.pushAll N a).1.dcnt, yh := (u.pushAll N a).1.yh } := by
  induction a generalizing u with
  | nil => rfl
  | cons x xs ih => simp only [DecUnit.pushAll]; rw [ih, push_frame]

theorem pushAll_dly_length (u : DecUnit F) (a : List (Cx F)) (h1 : 1 ≤ u.ntaps.toNat) (h : u.ntaps.toNat ≤ u.dly.length) :
    (u.pushAll N a).1.dly.length = u.dly.length := by
  induction a generalizing u with
  | nil => rfl
  | cons x xs ih =>
    have e := shiftIn_length u.ntaps.toNat x u.dly h1 h
    simp only [DecUnit.pushAll]
    rw [ih _ (by rw [push_frame]; exact h1) (by rw [push_frame]; dsimp only; omega), push_frame]
    exact e

/-- What the MIX unit never writes on a batch (R105). -/
theorem mixRun_frame (u : MixUnit F) (raw : List (Int × Int)) :
    (u.run N raw).1 = { u with phase := (u.run N raw).1.phase } := by
  unfold MixUnit.run; split <;> rfl

/-- What the DEC unit never writes on a batch (R126, R127). -/
theorem decRun_frame (u : DecUnit F) (a : List (Cx F)) :
    (u.run N a).1 = { u with dly := (u.run N a).1.dly, dcnt := (u.run N a).1.dcnt, yh := (u.run N a).1.yh } := by
  unfold DecUnit.run; split
  · exact pushAll_frame N u a
  · rfl

/-- What the DSC unit never writes on a batch (R142). -/
theorem dscRun_frame (u : DscUnit F) (b : List (Cx F)) :
    (u.run N b).1 = { u with prev := (u.run N b).1.prev, havePrev := (u.run N b).1.havePrev } := by
  induction b generalizing u with
  | nil => rfl
  | cons x xs ih => simp only [DscUnit.run]; rw [ih]; rfl

end Units

/-! ### Every operation on a memory keeps its form -/

/-- After reset no memory word holds a value (R47). -/
theorem memory_wf_reset : Memory.wf State.reset :=
  ⟨rfl, Nat.zero_le _, Nat.zero_le _, rfl, Nat.zero_le _⟩

/-- `LDTAPS` (R123). -/
theorem memory_wf_ldtaps {s : State} (n : Nat) (h : List FBits) (hw : Memory.wf s) (hl : h.length ≤ Config.lmax) :
    Memory.wf { s.popCmd n with
      dec := { s.dec with coef := h.map operandValue, ntaps := BitVec.ofNat 24 h.length } } := by
  obtain ⟨-, -, h3, h4, h5⟩ := hw
  have := Config.params.lmax_le
  refine ⟨?_, by simpa using hl, h3, h4, h5⟩
  simp only [List.length_map, BitVec.toNat_ofNat]
  exact (Nat.mod_eq_of_lt (by unfold Config.lmax at hl; omega)).symm

/-- The construction of `START` (R103, R125, R162). -/
theorem memory_wf_openStream {s : State} (hw : Memory.wf s) (hb : s.mix.batchN.toNat ≤ Config.nmax) :
    Memory.wf s.openStream := by
  obtain ⟨h1, h2, h3, h4, h5⟩ := hw
  have e1 : s.openStream.dec = s.dec.construct Config.num := rfl
  have e2 : s.openStream.mix = s.mix.construct Config.num := rfl
  simp only [Memory.wf, e1, e2, DecUnit.construct, DecUnit.init, MixUnit.construct]
  refine ⟨?_, ?_, ?_, ?_, ?_⟩ <;> split <;> simp_all [MixUnit.buildTable]
  omega

/-- `BATCH` (R126, R163), on a stream whose delay line is as `START` made it. -/
theorem memory_wf_processBatch {s : State} (n : U24) (hw : Memory.wf s)
    (hd : s.dec.decEn = true → 1 ≤ s.dec.ntaps.toNat ∧ s.dec.ntaps.toNat ≤ s.dec.dly.length) :
    Memory.wf (s.processBatch n) := by
  obtain ⟨h1, h2, h3, h4, h5⟩ := hw
  simp only [Memory.wf, State.processBatch, Pipeline.run]
  rw [mixRun_frame, decRun_frame]
  refine ⟨h1, h2, ?_, h4, h5⟩
  unfold DecUnit.run
  split
  · rw [pushAll_dly_length _ _ _ (hd ‹_›).1 (hd ‹_›).2]; exact h3
  · exact h3

/-- Every operation that leaves the memories alone. -/
theorem memory_wf_congr {s t : State} (hc : t.dec.coef = s.dec.coef) (hn : t.dec.ntaps = s.dec.ntaps)
    (hd : t.dec.dly = s.dec.dly) (hs : t.mix.dsin = s.mix.dsin) (hco : t.mix.dcos = s.mix.dcos) :
    Memory.wf t ↔ Memory.wf s := by
  simp only [Memory.wf, hc, hn, hd, hs, hco]

end Sys2Proof.Machine
end

