-- ==== Sys2Proof/Laws/PerInstr.lean ====
section
/-! SUPPORT. Laws/PerInstr.lean: what holds of every command as syntax, one lemma per constructor of `Instr`. -/

namespace Sys2Proof.Laws.HeadWord

/-- The head word that the encoder writes for a command is the one by which the decoder knows that command: its row of the
opcode map and its immediate (R80, R82, R84). -/
def Statement (i : Instr) : Prop := decodeHead i.head = some ⟨i.op, i.imm⟩

theorem nop : Statement .nop := decodeHead_of_mustBeZero _ _ (Instr.imm_mustBeZero .nop)
theorem rst : Statement .rst := decodeHead_of_mustBeZero _ _ (Instr.imm_mustBeZero .rst)
theorem start : Statement .start := decodeHead_of_mustBeZero _ _ (Instr.imm_mustBeZero .start)
theorem batch (n : U24) : Statement (.batch n) := decodeHead_of_mustBeZero _ _ (Instr.imm_mustBeZero (.batch n))
theorem stop : Statement .stop := decodeHead_of_mustBeZero _ _ (Instr.imm_mustBeZero .stop)
theorem rd (idx : BitVec 8) : Statement (.rd idx) := decodeHead_of_mustBeZero _ _ (Instr.imm_mustBeZero (.rd idx))
theorem setshift (r : FBits) : Statement (.setshift r) :=
  decodeHead_of_mustBeZero _ _ (Instr.imm_mustBeZero (.setshift r))
theorem setn (n : U24) : Statement (.setn n) := decodeHead_of_mustBeZero _ _ (Instr.imm_mustBeZero (.setn n))
theorem setm (m : U24) : Statement (.setm m) := decodeHead_of_mustBeZero _ _ (Instr.imm_mustBeZero (.setm m))
theorem setdph (p : U24) : Statement (.setdph p) := decodeHead_of_mustBeZero _ _ (Instr.imm_mustBeZero (.setdph p))
theorem ldtaps (h : List FBits) : Statement (.ldtaps h) :=
  decodeHead_of_mustBeZero _ _ (Instr.imm_mustBeZero (.ldtaps h))
theorem setgain (g : FBits) : Statement (.setgain g) := decodeHead_of_mustBeZero _ _ (Instr.imm_mustBeZero (.setgain g))
theorem setqpol (p : QPolicy) : Statement (.setqpol p) :=
  decodeHead_of_mustBeZero _ _ (Instr.imm_mustBeZero (.setqpol p))

end Sys2Proof.Laws.HeadWord
end

