-- ==== Sys2Proof/Tests/Slice0.lean ====
section
/-! SUPPORT. Tests/Slice0.lean: the model's own tests. Expected results are the spec's (vectors of 95_test_vectors.md, named by
their ids) or worked by hand from its rules. Behind them the witnesses: for every statement with hypotheses, data that
meets them. -/

namespace Sys2Proof.Tests

open Sys2Proof Sys2Proof.Machine

/-! ## Well-formed terms (R82) -/

/-- One coefficient more than the 24-bit immediate can count. -/
theorem test_wf_refuses_too_many_coefficients : (Instr.ldtaps (List.replicate (2 ^ 24) 0)).wf = false := by
  have h : ∀ n, ¬ n < 2 ^ 24 → (Instr.ldtaps (List.replicate n 0)).wf = false := fun n hn => by
    simp only [Instr.wf, List.length_replicate, hn, decide_false]
  exact h (2 ^ 24) (Nat.lt_irrefl _)

theorem test_wf_admits_the_most_coefficients : (Instr.ldtaps (List.replicate (2 ^ 24 - 1) 0)).wf = true := by
  have h : ∀ n, n < 2 ^ 24 → (Instr.ldtaps (List.replicate n 0)).wf = true := fun n hn => by
    simp only [Instr.wf, List.length_replicate, hn, decide_true]
  exact h (2 ^ 24 - 1) (by norm_num)

/-! ## Decoding (R80 to R87) -/

/-- No head word matches two rows of the opcode map. -/
theorem test_opcode_rows_are_disjoint :
    opcodeTable.Pairwise fun r q => (r.pattern ^^^ q.pattern) &&& r.mask &&& q.mask ≠ 0 := by decide

/-- H1 to H3, H6. -/
theorem test_decode_sequencer_without_operand :
    decode [0x00000000#32] = .ok (.nop, []) ∧ decode [0x01000000#32] = .ok (.rst, []) ∧
    decode [0x02000000#32] = .ok (.start, []) ∧ decode [0x04000000#32] = .ok (.stop, []) := ⟨rfl, rfl, rfl, rfl⟩

/-- H4, H5, H7, H8, and what stands behind is left. -/
theorem test_decode_sequencer_with_operand :
    decode [0x03000004#32] = .ok (.batch 4, []) ∧ decode [0x03001000#32] = .ok (.batch 4096, []) ∧
    decode [0x05000000#32] = .ok (.rd 0, []) ∧ decode [0x05000012#32, 7#32] = .ok (.rd 0x12, [7#32]) :=
  ⟨rfl, rfl, rfl, rfl⟩

/-- Opcodes 0x11, 0x20, 0x21: the immediate is the operand, its top bit included. -/
theorem test_decode_integer_configuration :
    decode [0x11000003#32] = .ok (.setn 3, []) ∧ decode [0x20000002#32] = .ok (.setm 2, []) ∧
    decode [0x21000001#32] = .ok (.setdph 1, []) ∧ decode [0x11FFFFFF#32] = .ok (.setn 0xFFFFFF, []) := ⟨rfl, rfl, rfl, rfl⟩

/-- Opcode 0x40: policy 0 is WRAP, 1 is SAT; any other bit is reserved. -/
theorem test_decode_setqpol :
    decode [0x40000000#32] = .ok (.setqpol .wrap, []) ∧ decode [0x40000001#32] = .ok (.setqpol .sat, []) ∧
    decode [0x40000002#32] = .error (.illegal 0x40000002#32) := ⟨rfl, rfl, rfl⟩

/-- The three commands with operand words, by their head words: 0x10, 0x30 take one operand, 0x22 as many as its immediate. -/
theorem test_decode_head_words_with_operands :
    decodeHead 0x10000000#32 = some ⟨.setshift, 0⟩ ∧ decodeHead 0x30000000#32 = some ⟨.setgain, 0⟩ ∧
    decodeHead 0x22000002#32 = some ⟨.ldtaps, 2⟩ ∧ decode [0x22000000#32] = .ok (.ldtaps [], []) ∧
    (⟨.setshift, 0⟩ : Head).operandWords = Config.numWords ∧ (⟨.setgain, 0⟩ : Head).operandWords = Config.numWords ∧
    (⟨.ldtaps, 2⟩ : Head).operandWords = Config.numWords * 2 := ⟨rfl, rfl, rfl, rfl, rfl, rfl, rfl⟩

/-- R83: the first operand word is the least significant. -/
theorem test_operand_words_low_word_first : joinWords [0x00000001#32, 0x80000000#32] = 0x8000000000000001 := rfl

/-- `SETSHIFT` with the words of its operand behind its head word. -/
theorem test_decode_setshift (ws : List Word) (h : ws.length = Config.numWords) :
    decode (0x10000000#32 :: ws) = .ok (.setshift (joinOperand ws), []) := by
  simp [decode, show decodeHead 0x10000000#32 = some ⟨.setshift, 0⟩ from rfl, Head.operandWords, Head.assemble, h,
    List.take_of_length_le (Nat.le_of_eq h)]

/-- `SETGAIN` with the words of its operand behind its head word. -/
theorem test_decode_setgain (ws : List Word) (h : ws.length = Config.numWords) :
    decode (0x30000000#32 :: ws) = .ok (.setgain (joinOperand ws), []) := by
  simp [decode, show decodeHead 0x30000000#32 = some ⟨.setgain, 0⟩ from rfl, Head.operandWords, Head.assemble, h,
    List.take_of_length_le (Nat.le_of_eq h)]

/-- `LDTAPS` with one coefficient (0x22000001). -/
theorem test_decode_ldtaps (ws : List Word) (h : ws.length = Config.numWords) :
    decode (0x22000001#32 :: ws) = .ok (.ldtaps [joinOperand ws], []) := by
  simp [decode, show decodeHead 0x22000001#32 = some ⟨.ldtaps, 1⟩ from rfl, Head.operandWords, Head.assemble, h,
    takeOperands, List.take_of_length_le (Nat.le_of_eq h)]

/-- R85: opcodes that are in no row, and ones in a must-be-zero bit (E13 to E16, E18). -/
theorem test_decode_refuses_illegal_words :
    decodeHead 0x06000000#32 = none ∧ decodeHead 0x12000000#32 = none ∧ decodeHead 0x41000000#32 = none ∧
    decodeHead 0xFFFFFFFF#32 = none ∧ decodeHead 0x02000001#32 = none ∧ decodeHead 0x05000108#32 = none ∧
    decodeHead 0x40000002#32 = none ∧ decodeHead 0x10000001#32 = none := by decide

/-- The encoder writes the words of H4, H8, H9 and of `SETQPOL SAT`. -/
theorem test_encode_words :
    encode (.batch 4) = [0x03000004#32] ∧ encode (.rd 0x12) = [0x05000012#32] ∧ encode (.setn 4) = [0x11000004#32] ∧
    encode (.setqpol .sat) = [0x40000001#32] ∧ encode (.ldtaps []) = [0x22000000#32] := ⟨rfl, rfl, rfl, rfl, rfl⟩

/-- The opcode table's numbering: a one-word command, and a command whose operand words the table gives no bits. -/
theorem test_decode_table_word :
    decodeTableWord 32 0x03000004 = some (.batch 4) ∧ decodeTableWord 32 0x06000000 = none ∧
    ∃ r, decodeTableWord 32 0x10000000 = some (.setshift r) := ⟨rfl, rfl, _, rfl⟩

/-! ## Samples (R63, R64) -/

/-- F1 to F3. -/
theorem test_unpack :
    unpack [0x00, 0x80, 0xFF, 0x7F] = [(-32768, 32767)] ∧ unpack [0x02, 0x01, 0xFE, 0xFF] = [(258, -2)] ∧
    unpack [0x01, 0, 0, 0, 0, 0, 0x01, 0] = [(1, 0), (0, 1)] := by decide

/-- F5 to F9. -/
theorem test_pack :
    pack [25735] = [0x87, 0x64] ∧ pack [-2] = [0xFE, 0xFF] ∧ pack [-32768, 32767] = [0x00, 0x80, 0xFF, 0x7F] ∧
    pack [-14066] = [0x0E, 0xC9] ∧ pack [] = [] := by decide

/-! ## The units, in a domain for tests only: rational numbers, angles in quarter turns -/

/-- Exact at multiples of a quarter turn (and `atan2` also on the diagonals). -/
def numQuarter : Num Rat where
  ofInt z := z
  add a b := a + b
  sub a b := a - b
  mul a b := a * b
  div a b := a / b
  sin a := if a = 1 then 1 else if a = -1 then -1 else 0
  cos a := if a = 0 then 1 else if a = 2 then -1 else 0
  atan2 y x :=
    if y = 0 then (if 0 < x then 0 else 2)
    else if 0 < y then (if x = 0 then 1 else if 0 < x then 1 / 2 else 3 / 2)
    else (if x = 0 then -1 else if 0 < x then -1 / 2 else -3 / 2)
  pi := 2
  twoPi := 4
  wrap a := a - 4 * ((a - 2) / 4).ceil
  isZero a := decide (a = 0)
  isFinite _ := true
  roundInt a := if 0 ≤ a then (a + 1 / 2).floor else -(-a + 1 / 2).floor
  unset _ := 0

/-- The MIX unit of M1: a shift of a quarter turn per sample, three samples a batch. -/
def mixShift : MixUnit Rat :=
  { (Pipeline.reset numQuarter).mix with shiftRate := 1 / 4, phaseInc := 1, batchN := 3 }

/-- M1. -/
theorem test_mixer_table :
    (mixShift.construct numQuarter).dsin = [0, 1, 0] ∧ (mixShift.construct numQuarter).dcos = [1, 0, -1] ∧
    (mixShift.construct numQuarter).shiftEn = true ∧ (mixShift.construct numQuarter).phase = 0 := by decide +kernel

/-- M2, M3: two batches, the phase going on (-1 is -pi/2, 2 is pi). -/
theorem test_mixer_batches :
    let r := (mixShift.construct numQuarter).run numQuarter [(1000, 0), (1000, 0), (1000, 0)]
    let r' := r.1.run numQuarter [(1000, 0), (1000, 0), (1000, 0)]
    let a : Rat := 1000 / 32767
    r.2 = [⟨a, 0⟩, ⟨0, a⟩, ⟨-a, 0⟩] ∧ r.1.phase = -1 ∧ r'.2 = [⟨0, -a⟩, ⟨a, 0⟩, ⟨0, a⟩] ∧ r'.1.phase = 2 := by
  decide +kernel

/-- M9: a short batch advances the phase by its own count. -/
theorem test_mixer_short_batch :
    let r := (mixShift.construct numQuarter).run numQuarter [(1000, 0), (1000, 0)]
    let r' := r.1.run numQuarter [(1000, 0), (1000, 0), (1000, 0)]
    let a : Rat := 1000 / 32767
    r.1.phase = 2 ∧ r'.2 = [⟨-a, 0⟩, ⟨0, -a⟩, ⟨a, 0⟩] ∧ r'.1.phase = 1 := by decide +kernel

/-- M7: the bypass carries the raw amplitudes. -/
theorem test_mixer_bypass :
    let r := ((Pipeline.reset numQuarter).mix.construct numQuarter).run numQuarter [(-32768, 32767)]
    r.2 = [⟨-32768, 32767⟩] ∧ r.1.phase = 0 ∧ r.1.shiftEn = false := by decide +kernel

/-- The DEC unit of K8 to K10: M = 3, coefficients 1, 2, 3. -/
def decFilter (p : U24) : DecUnit Rat :=
  { (Pipeline.reset numQuarter).dec with decimM := 3, ntaps := 3, dph := p, coef := [1, 2, 3] }

/-- K8 to K10. -/
theorem test_decimator_values :
    let y (p : U24) :=
      (((decFilter p).construct numQuarter).run numQuarter ([1, 2, 3, 4, 5, 6].map fun x => ⟨x, 0⟩)).2
    y 0 = [⟨1 / 3, 0⟩, ⟨16 / 3, 0⟩] ∧ y 1 = [⟨4 / 3, 0⟩, ⟨22 / 3, 0⟩] ∧ y 2 = [⟨10 / 3, 0⟩, ⟨28 / 3, 0⟩] := by
  decide +kernel

/-- K1 to K7: outputs of a batch and `DCNT` after it, from M, `DCNT` and n. -/
theorem test_decimator_counts :
    let k (m c : U24) (n : Nat) :=
      let u := { decFilter 0 with decimM := m, dcnt := c, decEn := true, dly := List.replicate 3 (cxZero numQuarter) }
      let r := u.run numQuarter (List.replicate n (cxZero numQuarter))
      (r.2.length, r.1.dcnt)
    k 2 0 3 = (1, 1) ∧ k 2 1 3 = (2, 0) ∧ k 3 0 4 = (1, 1) ∧ k 3 1 4 = (1, 2) ∧ k 3 2 4 = (2, 0) ∧ k 5 3 1 = (0, 4) ∧
    k 2 1 0 = (0, 1) := by decide +kernel

/-- X1 to X11: one sample through the DSC unit (1 is pi/2). -/
theorem test_discriminator_values :
    let d (g : Rat) (h : Bool) (p s : Cx Rat) := (({ gain := g, prev := p, havePrev := h } : DscUnit Rat).disc numQuarter s).2
    d (1 / 2) false ⟨0, 0⟩ ⟨1, 0⟩ = 0 ∧ d (1 / 2) true ⟨1, 0⟩ ⟨0, 1⟩ = 1 / 2 ∧ d (1 / 2) true ⟨1, 0⟩ ⟨0, -1⟩ = -1 / 2 ∧
    d (1 / 2) true ⟨4, -3⟩ ⟨3, 4⟩ = 1 / 2 ∧ d (1 / 2) true ⟨1, 0⟩ ⟨-1, 0⟩ = 1 ∧ d (1 / 2) true ⟨-1, 0⟩ ⟨1, 1⟩ = -3 / 4 ∧
    d (1 / 2) true ⟨2, 2⟩ ⟨2, 2⟩ = 0 ∧ d (1 / 2) true ⟨1, 1⟩ ⟨0, 0⟩ = 0 ∧ d (1 / 2) true ⟨0, 0⟩ ⟨5, 7⟩ = 0 ∧
    d (-1 / 2) true ⟨1, 0⟩ ⟨-1, 0⟩ = -1 ∧ d 1 true ⟨1, 0⟩ ⟨-1, 0⟩ = 2 := by decide +kernel

/-- Q2, Q3, Q7 to Q14, the rounded integer narrowed. -/
theorem test_quantizer_policies :
    narrow .wrap 32767 = 32767 ∧ narrow .sat 32767 = 32767 ∧ narrow .wrap (-32767) = -32767 ∧
    narrow .wrap 32768 = -32768 ∧ narrow .sat 32768 = 32767 ∧ narrow .wrap (-32769) = 32767 ∧
    narrow .sat (-32769) = -32768 ∧ narrow .wrap (-32768) = -32768 ∧ narrow .wrap 51470 = -14066 ∧
    narrow .wrap (-38603) = 26933 ∧ narrow .wrap 102941 = -28131 ∧ narrow .wrap (-51470) = 14066 ∧
    narrow .wrap 131072 = 0 ∧ narrow .sat 131072 = 32767 := by decide

/-- Q1, Q4 to Q6: ties go away from zero. -/
theorem test_quantizer_rounding :
    let q (d : Rat) := ({ qpol := .wrap } : QntUnit).quant numQuarter d
    q 0 = 0 ∧ q (1 / 2 / 32767) = 1 ∧ q (-1 / 2 / 32767) = -1 ∧ q (5 / 2 / 32767) = 3 := by decide +kernel

/-! ## One step, from small states -/

/-- The reset state with the given words in `CMD`. -/
def idle (ws : List Word) : State := { State.reset with cmd := ws }

/-- An open stream of a bypassed mixer and decimator, `BATCH_N` = n. -/
def running (n : U24) (ws : List Word) (bs : List Byte) : State :=
  { State.reset with
    opState := .run, cmd := ws, inp := bs
    mix := { State.reset.mix with batchN := n }
    dsc := { State.reset.dsc with gain := Config.num.ofInt 1 } }

/-- An open stream with the decimator engaged: M = 2, one coefficient. -/
def decimating (ws : List Word) (bs : List Byte) : State :=
  { running 1 ws bs with
    dec := { State.reset.dec with
      decimM := 2, ntaps := 1, coef := [Config.num.ofInt 1], decEn := true, dly := [cxZero Config.num]
      scale := Config.num.div (Config.num.ofInt 1) (Config.num.ofInt 2) } }

/-- A block in ERROR: the state E11 ends in. -/
def failed (ws : List Word) : State :=
  { running 4 ws [] with opState := .error, cause := .badOperand, info := 0x03000005#32 }

/-- E24, in IDLE and in ERROR. -/
theorem test_nop : step (idle [0x00000000#32]) = .next (idle []) ∧ step (failed [0x00000000#32]) = .next (failed []) :=
  ⟨rfl, rfl⟩

/-- E26, R161: `RST` in RUN; `OUT` and `RSP` stay. -/
theorem test_rst :
    step { running 4 [0x01000000#32, 7#32] [1, 2] with out := [3], rsp := [4] } =
      .next { State.reset with cmd := [7#32], out := [3], rsp := [4] } := rfl

/-- E2. -/
theorem test_start_of_unconfigured_block :
    step (idle [0x02000000#32]) =
      .next { State.reset with opState := .error, cause := .configError, info := 0x02000000#32 } := rfl

/-- E8. -/
theorem test_start_in_run :
    step (running 4 [0x02000000#32] []) =
      .next { running 4 [] [] with opState := .error, cause := .badState, info := 0x02000000#32 } := rfl

/-- E11 (the words behind stay; `IN` untouched), E12. -/
theorem test_batch_faults :
    step (running 4 [0x03000005#32, 7#32] [1]) =
      .next { running 4 [7#32] [1] with opState := .error, cause := .badOperand, info := 0x03000005#32 } ∧
    step (idle [0x03000009#32]) =
      .next { State.reset with opState := .error, cause := .badState, info := 0x03000009#32 } := ⟨rfl, rfl⟩

/-- E20 and E19: a batch of no sample, and one that holds. -/
theorem test_batch_of_nothing_and_hold :
    step (running 4 [0x03000000#32] [5]) = .next { running 4 [] [5] with short := true } ∧
    step (running 4 [0x03000004#32] (List.replicate 8 0)) = .next (running 4 [0x03000004#32] (List.replicate 8 0)) :=
  ⟨rfl, rfl⟩

/-- E21: two bytes are left; E10. -/
theorem test_stop :
    step (running 4 [0x04000000#32] [0xFF, 0xFF]) =
      .next { running 4 [] [] with opState := .idle, eos := true, resid := true } ∧
    step (idle [0x04000000#32]) =
      .next { State.reset with opState := .error, cause := .badState, info := 0x04000000#32 } := ⟨rfl, rfl⟩

/-- E1. -/
theorem test_rd :
    step (idle [0x05000004#32]) = .next { State.reset with rsp := [1] } ∧
    step (idle [0x05000000#32]) = .next { State.reset with rsp := [0] } := ⟨rfl, rfl⟩

/-- The codes of R180, by `RD CAUSE`. -/
theorem test_rd_cause :
    ([Cause.noFault, .configError, .filterError, .illegalCommand, .badState, .badOperand].map fun c =>
      Reg.words .cause { failed [] with cause := c }) = [[0#32], [1], [2], [5], [6], [7]] := rfl

/-- E17, in IDLE and in ERROR. -/
theorem test_rd_of_undefined_index :
    step (idle [0x05000008#32]) =
      .next { State.reset with opState := .error, cause := .badOperand, info := 0x05000008#32 } ∧
    step (failed [0x05000008#32]) = .next (failed []) := ⟨rfl, rfl⟩

/-- The status words of E20, E21, E23 and of the end of P2. -/
theorem test_status_words :
    let status (s : State) : Word := statusWord s.toRegisters
    status { running 4 [] [] with short := true } = 0x00000041#32 ∧
    status { idle [] with
      short := true, eos := true, resid := true, dsc := { State.reset.dsc with havePrev := true } } = 0x000001D0#32 ∧
    status { idle [] with qnt := { qpol := .sat } } = 0x00000020#32 ∧
    status { idle [] with
      eos := true, dsc := { State.reset.dsc with havePrev := true }
      mix := { State.reset.mix with shiftEn := true } } = 0x00000094#32 := ⟨rfl, rfl, rfl, rfl⟩

theorem test_setn :
    step (idle [0x11000003#32]) = .next { State.reset with mix := { State.reset.mix with batchN := 3 } } := rfl

/-- E7. -/
theorem test_setm :
    step (idle [0x20000002#32]) = .next { State.reset with dec := { State.reset.dec with decimM := 2 } } ∧
    step (running 4 [0x20000002#32] []) =
      .next { running 4 [] [] with opState := .error, cause := .badState, info := 0x20000002#32 } := ⟨rfl, rfl⟩

theorem test_setdph :
    step (idle [0x21000001#32]) = .next { State.reset with dec := { State.reset.dec with dph := 1 } } := rfl

/-- E23. -/
theorem test_setqpol : step (idle [0x40000001#32]) = .next { State.reset with qnt := { qpol := .sat } } := rfl

/-- K15; K14 in one step: words behind the new set hold no value. -/
theorem test_ldtaps (h : FBits) :
    step (decimating [0x22000000#32] []) =
      .next { decimating [] [] with opState := .error, cause := .badState, info := 0x22000000#32 } ∧
    (exec (.ldtaps [h]) { decimating [] [] with opState := .idle, cmd := encode (.ldtaps [h]) } =
      .next { decimating [] [] with
        opState := .idle
        dec := { (decimating [] []).dec with coef := [Config.dec h], ntaps := 1 } }) := by
  refine ⟨rfl, ?_⟩
  have : ¬ Config.lmax < 1 := by have := Config.params.lmax_pos; unfold Config.lmax; omega
  simp [exec, execLdtaps, gated, admission, tooManyTaps, this, State.popCmd, Instr.length, encode, Instr.operands,
    operandValue, List.drop_of_length_le, splitOperand_length]
  rfl

/-- R101: a rate is stored with its increment. -/
theorem test_setshift (r : FBits) :
    exec (.setshift r) (idle (encode (.setshift r) ++ [7#32])) = .next { idle [7#32] with
      mix := { State.reset.mix with
        shiftRate := Config.dec r, phaseInc := Config.num.mul Config.num.twoPi (Config.dec r) } } := by
  have : (Instr.setshift r).length = (encode (.setshift r)).length := by
    simp [Instr.length, encode, Instr.operands]; omega
  simp [exec, execSetshift, gated, admission, State.popCmd, idle, this, operandValue, MixUnit.setShift]

theorem test_setgain (g : FBits) :
    exec (.setgain g) (idle (encode (.setgain g) ++ [7#32])) = .next { idle [7#32] with
      dsc := { State.reset.dsc with gain := Config.dec g } } := by
  have : (Instr.setgain g).length = (encode (.setgain g)).length := by
    simp [Instr.length, encode, Instr.operands]; omega
  simp [exec, execSetgain, gated, admission, State.popCmd, idle, this, operandValue]

/-- E13, E14 outside ERROR, E25 in it. -/
theorem test_illegal_words :
    step (idle [0x06000000#32]) =
      .next { State.reset with opState := .error, cause := .illegalCommand, info := 0x06000000#32 } ∧
    step (idle [0x02000001#32]) =
      .next { State.reset with opState := .error, cause := .illegalCommand, info := 0x02000001#32 } ∧
    step (failed [0x12345678#32]) = .next (failed []) := ⟨rfl, rfl, rfl⟩

/-- `withFetchWord` places a command where the next step runs it. -/
theorem test_placed_command_runs :
    step (State.reset.withFetchWord 32 0x11000003) = exec (.setn 3) (State.reset.withFetchWord 32 0x11000003) ∧
    step (State.reset.withFetchWord 32 0x22000000) = exec (.ldtaps []) (State.reset.withFetchWord 32 0x22000000) :=
  ⟨rfl, rfl⟩

/-- The same for a command with operand words, whose number is a parameter. -/
theorem test_placed_setshift_runs :
    ∃ r, decodeTableWord 32 0x10000000 = some (.setshift r) ∧
      step (State.reset.withFetchWord 32 0x10000000) = exec (.setshift r) (State.reset.withFetchWord 32 0x10000000) := by
  refine ⟨_, rfl, ?_⟩
  have h := decodeTableWord_eq_decode 32 0x10000000
  rw [show decodeTableWord 32 0x10000000 = some (.setshift _) from rfl] at h
  have hc : (State.reset.withFetchWord 32 0x10000000).cmd = tableLayout 32 0x10000000 := by
    simp [State.withFetchWord, State.putFirst, State.reset]
  unfold step serve
  rw [hc]
  cases hd : decode (tableLayout 32 0x10000000) with
  | error e => rw [hd] at h; simp [Except.toOption] at h
  | ok p =>
    rw [hd] at h
    simp only [Except.toOption, Option.map_some, Option.some.injEq] at h
    dsimp only
    rw [← h]

/-- R88, R89, R206: what the host derives and expands. -/
theorem test_host_expansions :
    asmRates 48000 24000 = some [.setm 2] ∧ asmRates 48000 44100 = none ∧ asmRates 0 1 = none ∧
    hostRates (some 48000) none = some [.setm 1] ∧ hostRates none (some 1) = none ∧
    asmStream 10 4 = [.batch 4, .batch 4, .batch 2, .stop] ∧ asmStream 8 4 = [.batch 4, .batch 4, .stop] ∧
    asmRd "PHASE" = some (.rd 0x12) ∧ asmRd "YH" = none ∧ asmSetqpol "SAT" = some (.setqpol .sat) :=
  ⟨rfl, rfl, rfl, rfl, rfl, rfl, rfl, rfl, rfl, rfl⟩

/-- The host of P1 does its duties (R202, R203). -/
theorem test_host_duties : streamDuties [.setn 4] [4] (List.replicate 16 0) :=
  ⟨fun i hi => by obtain rfl : i = .setn 4 := by simpa using hi
                  rfl, ⟨4, by simp⟩, rfl⟩

/-! ## Witnesses: data that meets the hypotheses of each statement

A clause about a value that is not finite, or about more than `LMAX` coefficients in a head word, is met only where the open
parameters have such a value or leave room for one; those witnesses take that as their hypothesis. -/

theorem numWords_pos : 0 < Config.numWords := Config.params.codec.words_pos

/-- The interval that `wrap` reaches at the exact reals. -/
theorem numReal_wrap_mem (unset : Nat → ℝ) (a : ℝ) :
    -Real.pi < (numReal unset).wrap a ∧ (numReal unset).wrap a ≤ Real.pi := by
  have hp : 0 < 2 * Real.pi := by positivity
  have e : 2 * Real.pi * ((a - Real.pi) / (2 * Real.pi)) = a - Real.pi := by field_simp
  have h1 := mul_le_mul_of_nonneg_left (Int.le_ceil ((a - Real.pi) / (2 * Real.pi))) hp.le
  have h2 := mul_lt_mul_of_pos_left (Int.ceil_lt_add_one ((a - Real.pi) / (2 * Real.pi))) hp
  rw [mul_add, e] at h2
  rw [e] at h1
  constructor <;> dsimp only [numReal] <;> linarith

theorem finite_ofInt (z : Int) (h : z.natAbs ≤ 2 ^ 24) : Config.num.isFinite (Config.num.ofInt z) = true :=
  Config.params.laws.ofInt_finite z h

theorem test_witness_DecodeOfEncodeIsTheCommand : (Instr.ldtaps (List.replicate (2 ^ 24 - 1) 0)).wf = true :=
  test_wf_admits_the_most_coefficients

theorem test_witness_EncodeOfDecodeIsTheWords : decode [0x03FFFFFF#32] = .ok (.batch 0xFFFFFF, []) := rfl

/-- The ends of the ranges of R85, and the two states. -/
theorem test_witness_IllegalHeadWords :
    (∀ c ∈ [0x06, 0x0F, 0x12, 0x1F, 0x23, 0x2F, 0x31, 0x3F, 0x41, 0xFF], decodeHead (headWord (BitVec.ofNat 8 c) 0) = none) ∧
    decodeHead 0x04800000#32 = none ∧ decodeHead 0x05000100#32 = none ∧ decodeHead 0x40800001#32 = none ∧
    decodeHead 0x050000FF#32 ≠ none ∧ decodeHead 0x40000001#32 ≠ none ∧
    (idle [0x06000000#32]).opState ≠ .error ∧ (failed [0x06000000#32]).opState = .error := by decide

theorem test_witness_StepRunsTheDecodedCommand :
    decode (running 4 [0x03000004#32, 7#32] []).cmd = .ok (.batch 4, [7#32]) ∧ (Instr.batch 4).wf = true ∧
    (running 4 [0x03000004#32, 7#32] []).cmd = encode (.batch 4) ++ [7#32] := ⟨rfl, rfl, rfl⟩

/-- Every clause but the `LDTAPS` fault: no word; a head word without its operand words in each state; `LDTAPS` of `LMAX`. -/
theorem test_witness_IncompleteCommandsWait :
    (idle []).cmd = [] ∧ decodeHead 0x10000000#32 = some ⟨.setshift, 0⟩ ∧
    ([] : List Word).length < (⟨.setshift, 0⟩ : Head).operandWords ∧
    (failed [0x10000000#32]).opState = .error ∧ (running 4 [0x10000000#32] []).opState = .run ∧
    (idle [0x10000000#32]).opState = .idle ∧
    decodeHead (headWord 0x22#8 (BitVec.ofNat 24 Config.lmax)) = some ⟨.ldtaps, BitVec.ofNat 24 Config.lmax⟩ ∧
    ([] : List Word).length < (⟨.ldtaps, BitVec.ofNat 24 Config.lmax⟩ : Head).operandWords ∧
    (BitVec.ofNat 24 Config.lmax).toNat ≤ Config.lmax := by
  have h1 := Config.params.lmax_pos
  have h2 := Config.params.lmax_le
  have h3 : (BitVec.ofNat 24 Config.lmax).toNat = Config.lmax := by
    rw [BitVec.toNat_ofNat]; exact Nat.mod_eq_of_lt (by unfold Config.lmax; omega)
  refine ⟨rfl, rfl, numWords_pos, rfl, rfl, rfl, decodeHead_of_mustBeZero .ldtaps _ (by simp [Op.mustBeZero]), ?_, by omega⟩
  simp only [Head.operandWords, h3, List.length_nil]
  exact Nat.mul_pos numWords_pos h1

/-- The `LDTAPS` fault, where a head word can count more than `LMAX` coefficients. -/
theorem test_witness_IncompleteCommandsWait_tooManyTaps (h : Config.lmax < 2 ^ 24 - 1) :
    decodeHead 0x22FFFFFF#32 = some ⟨.ldtaps, 0xFFFFFF⟩ ∧
    ([] : List Word).length < (⟨.ldtaps, 0xFFFFFF⟩ : Head).operandWords ∧
    (idle [0x22FFFFFF#32]).opState = .idle ∧ Config.lmax < (0xFFFFFF#24).toNat :=
  ⟨rfl, Nat.mul_pos numWords_pos (by decide), rfl, h⟩

/-- One command that takes its words, one that faults in RUN and leaves its operand words in `CMD`, one that holds. -/
theorem test_witness_CommandsTakeTheirOwnWords (r : FBits) :
    (running 4 (encode (.setshift r)) []).cmd = encode (.setshift r) ++ [] ∧
    step (running 4 (encode (.setshift r)) []) = .next { running 4 (Instr.operands (.setshift r)) [] with
      opState := .error, cause := .badState, info := 0x10000000#32 } ∧
    Instr.operands (.setshift r) ≠ [] ∧
    (idle [0x00000000#32]).cmd = encode .nop ++ [] ∧ step (idle [0x00000000#32]) = .next (idle []) ∧
    (running 4 [0x03000004#32] []).cmd = encode (.batch 4) ++ [] ∧
    step (running 4 [0x03000004#32] []) = .next (running 4 [0x03000004#32] []) := by
  have hl : (Instr.operands (.setshift r)).length = Config.numWords := splitOperand_length r
  refine ⟨(List.append_nil _).symm, ?_, fun h => ?_, rfl, rfl, rfl, rfl⟩
  · have hc : (running 4 (encode (.setshift r)) []).cmd = 0x10000000#32 :: Instr.operands (.setshift r) :=
      congrArg (· :: Instr.operands (.setshift r)) (show headWord 0x10#8 0#24 = 0x10000000#32 by decide)
    unfold step serve
    rw [hc, test_decode_setshift _ hl]
    simp [exec, execSetshift, gated, admission, raise, Registers.fault, State.popCmd, running, encode, Instr.head, Instr.op,
      Instr.imm, Op.code, show headWord 0x10#8 0#24 = 0x10000000#32 by decide]
  · have := numWords_pos
    rw [h] at hl; simp at hl; omega

/-- A `BATCH` without its input, and each way to wait for operand words: the head word of `SETSHIFT`, and of `LDTAPS` with one
coefficient. -/
theorem test_witness_WhatHolds :
    (running 4 [0x03000004#32] [1]).cmd = (Instr.batch 4).head :: [] ∧ (running 4 [0x03000004#32] [1]).inp.length < 4 * (4#24).toNat ∧
    (running 4 [0x03000004#32] [1]).holds ∧
    (idle [0x10000000#32]).cmd = 0x10000000#32 :: [] ∧ decodeHead 0x10000000#32 = some ⟨.setshift, 0⟩ ∧
    (idle [0x10000000#32]).opState = .idle ∧ ([] : List Word).length < (⟨.setshift, 0⟩ : Head).operandWords ∧
    (idle [0x10000000#32]).holds ∧
    decodeHead 0x22000001#32 = some ⟨.ldtaps, 1⟩ ∧ ([] : List Word).length < (⟨.ldtaps, 1⟩ : Head).operandWords ∧
    (1#24).toNat ≤ Config.lmax := by
  have h : ([] : List Word).length < (⟨.setshift, 0⟩ : Head).operandWords := numWords_pos
  refine ⟨rfl, by decide, ⟨by simp [running], rfl⟩, rfl, rfl, rfl, h, ⟨by simp [idle], ?_⟩, rfl,
    Nat.mul_pos numWords_pos Nat.one_pos, Config.params.lmax_pos⟩
  have hd : decode (idle [0x10000000#32]).cmd = .error (.missingOperands ⟨.setshift, 0⟩) := by
    rw [show (idle [0x10000000#32]).cmd = 0x10000000#32 :: [] from rfl]
    exact if_pos h
  unfold step serve
  rw [hd]
  rfl

theorem test_witness_IntegerConfigurationCommandsWriteTheirRegister :
    (idle [0x11000003#32]).opState = .idle ∧ (running 4 [0x11000003#32] []).opState = .run := ⟨rfl, rfl⟩

theorem test_witness_SetshiftWritesRateAndIncrement :
    (idle [0x10000000#32]).opState = .idle ∧ (running 4 [0x10000000#32] []).opState = .run := ⟨rfl, rfl⟩

theorem test_witness_SetgainWritesGain :
    (idle [0x30000000#32]).opState = .idle ∧ (running 4 [0x30000000#32] []).opState = .run := ⟨rfl, rfl⟩

/-- No coefficient, `LMAX` of them, one more. -/
theorem test_witness_LdtapsLoadsTheCoefficients :
    (idle []).opState = .idle ∧ (running 4 [] []).opState = .run ∧ ([] : List FBits).length ≤ Config.lmax ∧
    (List.replicate Config.lmax (0 : FBits)).length ≤ Config.lmax ∧
    Config.lmax < (List.replicate (Config.lmax + 1) (0 : FBits)).length := by
  refine ⟨rfl, rfl, Nat.zero_le _, ?_, ?_⟩ <;> simp

/-- The reset state for the first clause, a state with M = 0 for the second, and one for the last: no coefficients, and
`DPH` = M. -/
theorem test_witness_StartFaultsByTheFirstFailingCheck :
    (idle []).opState = .idle ∧ (idle []).mix.batchN = 0 ∧
    ({ idle [] with dec := { (idle []).dec with decimM := 0 } } : State).dec.decimM = 0 ∧
    (let s : State := { running 1 [] [] with
        opState := .idle, dec := { (idle []).dec with decimM := 2, dph := 2 } }
     s.opState = .idle ∧ s.mix.batchN ≠ 0 ∧ s.mix.batchN.toNat ≤ Config.nmax ∧
     Config.num.isFinite s.mix.shiftRate = true ∧ Config.num.isFinite s.mix.phaseInc = true ∧
     Config.num.isFinite s.dsc.gain = true ∧ 2 ≤ s.dec.decimM.toNat ∧ s.dec.ntaps = 0 ∧
     s.dec.decimM.toNat ≤ s.dec.dph.toNat) :=
  ⟨rfl, rfl, rfl, rfl, by decide, Config.params.nmax_pos, finite_ofInt 0 (by decide), finite_ofInt 0 (by decide),
    finite_ofInt 1 (by decide), by decide, rfl, by decide⟩

/-- A batch size above `NMAX`, where a 24-bit register can hold one. -/
theorem test_witness_StartFaultsByTheFirstFailingCheck_batchTooLarge (h : Config.nmax < 2 ^ 24 - 1) :
    (idle []).opState = .idle ∧
    Config.nmax < ({ idle [] with mix := { (idle []).mix with batchN := 0xFFFFFF } } : State).mix.batchN.toNat := ⟨rfl, h⟩

/-- The clauses about values that are not finite, where the domain has one. -/
theorem test_witness_StartFaultsByTheFirstFailingCheck_notFinite (v : Value) (h : Config.num.isFinite v = false) :
    Config.num.isFinite ({ idle [] with mix := { (idle []).mix with shiftRate := v } } : State).mix.shiftRate = false ∧
    (let s : State := { decimating [] [] with
        opState := .idle, dec := { (decimating [] []).dec with coef := [v] } }
     s.dec.coef[0]? = some v ∧ 0 < s.dec.ntaps.toNat ∧ Config.num.isFinite v = false) := ⟨h, rfl, Nat.one_pos, h⟩

/-- A bypassed stream at the smallest batch size, and one with mixer and decimator engaged. -/
theorem test_witness_StartOpensTheStream :
    (let s : State := { running 1 [] [] with opState := .idle }
     s.opState = .idle ∧ s.mix.batchN ≠ 0 ∧ s.mix.batchN.toNat ≤ Config.nmax ∧ s.dec.decimM ≠ 0 ∧
     Config.num.isFinite s.mix.shiftRate = true ∧ Config.num.isFinite s.mix.phaseInc = true ∧
     Config.num.isFinite s.dsc.gain = true ∧ ¬ 2 ≤ s.dec.decimM.toNat ∧ Config.num.isZero s.mix.shiftRate = true) ∧
    (let s : State := { decimating [] [] with
        opState := .idle, mix := { (decimating [] []).mix with shiftRate := Config.num.ofInt 1 } }
     Config.num.isFinite s.mix.shiftRate = true ∧ Config.num.isZero s.mix.shiftRate = false ∧ 2 ≤ s.dec.decimM.toNat ∧
     s.dec.ntaps ≠ 0 ∧ s.dec.dph.toNat < s.dec.decimM.toNat ∧ s.dec.coef.length = s.dec.ntaps.toNat ∧
     ∀ c ∈ s.dec.coef, Config.num.isFinite c = true) := by
  refine ⟨⟨rfl, by decide, Config.params.nmax_pos, by decide, finite_ofInt 0 (by decide), finite_ofInt 0 (by decide),
    finite_ofInt 1 (by decide), by decide, Config.params.laws.isZero_zero⟩, finite_ofInt 1 (by decide),
    Config.params.laws.isZero_ofInt 1 (by decide), by decide, by decide, by decide, rfl, ?_⟩
  intro c hc
  obtain rfl : c = Config.num.ofInt 1 := by simpa [decimating] using hc
  exact finite_ofInt 1 (by decide)

/-- A batch of no sample, and one of `BATCH_N` samples with no byte to spare. -/
theorem test_witness_BatchRunsTheFourUnitsInOrder :
    (running 1 [] [1, 0, 0, 0]).opState = .run ∧ (1#24).toNat ≤ (running 1 [] [1, 0, 0, 0]).mix.batchN.toNat ∧
    4 * (1#24).toNat ≤ (running 1 [] [1, 0, 0, 0]).inp.length ∧ 4 * (0#24).toNat ≤ (running 1 [] []).inp.length := by decide

/-- The same batch, with units bypassed, and the state it leads to. -/
theorem test_witness_BatchFrame :
    (running 1 [] [1, 0, 0, 0]).mix.shiftEn = false ∧ (running 1 [] [1, 0, 0, 0]).dec.decEn = false ∧
    exec (.batch 1) (running 1 [0x03000001#32] [1, 0, 0, 0]) =
      .next ((running 1 [] [1, 0, 0, 0]).processBatch 1) ∧
    exec (.batch 0) (running 1 [0x03000000#32] []) = .next ((running 1 [] []).processBatch 0) ∧
    ({ running 1 [] [] with short := true } : State).short = true := ⟨rfl, rfl, rfl, rfl, rfl⟩

/-- One sample too many, and one byte too few. -/
theorem test_witness_BatchFaultsOrHolds :
    (running 1 [] [1, 0, 0]).opState = .run ∧ (running 1 [] [1, 0, 0]).mix.batchN.toNat < (2#24).toNat ∧
    (1#24).toNat ≤ (running 1 [] [1, 0, 0]).mix.batchN.toNat ∧ (running 1 [] [1, 0, 0]).inp.length < 4 * (1#24).toNat := by
  decide

theorem test_witness_StopClosesTheStream : (running 1 [] [1]).opState = .run ∧ (idle []).opState = .idle := ⟨rfl, rfl⟩

/-- The ends of the two ranges of indices, in and out of ERROR. -/
theorem test_witness_RdPushesTheRegister :
    (∀ idx ∈ [0x08#8, 0x0F#8, 0x17#8, 0xFF#8], (0x08 ≤ idx.toNat ∧ idx.toNat ≤ 0x0F) ∨ 0x17 ≤ idx.toNat) ∧
    (idle []).opState ≠ .error ∧ (failed []).opState = .error := by decide

theorem test_witness_InadmissibleCommands :
    (failed []).opState = .error ∧ (Instr.start).op ∉ [Op.nop, .rst, .rd] ∧ (idle []).opState = .idle ∧
    (Instr.stop).op ∈ [Op.batch, .stop] ∧ (running 4 [] []).opState = .run ∧
    (Instr.ldtaps []).op ∈ [Op.start, .setshift, .setn, .setm, .setdph, .ldtaps, .setgain, .setqpol] := by decide

/-- E10. -/
theorem test_witness_FaultEntryIsPrecise :
    ∃ t, step (idle [0x04000000#32]) = .next t ∧ (idle [0x04000000#32]).opState ≠ .error ∧ t.opState = .error :=
  ⟨_, rfl, by decide, rfl⟩

/-- A word of each kind. -/
theorem test_witness_ErrorStateExecutesThreeWordsOnly :
    (failed [0x01000000#32]).opState = .error ∧ (failed [0x01000000#32]).cmd = [0x01000000#32] ∧
    0x05000016#32 = 0x05000000#32 ||| (0x16#8).setWidth 32 ∧ Reg.prevIm.index = 0x16#8 ∧
    (∀ r ∈ Reg.all, 0x05000017#32 ≠ 0x05000000#32 ||| r.index.setWidth 32) := by decide

/-- A run in ERROR: the host sends, the block drops. -/
theorem test_witness_ErrorLastsUntilReset :
    (failed [0x12345678#32]).opState = .error ∧
    runEvents [.block, .host (.pushByte 1), .host (.sendWord 0x03000001#32), .block] (failed [0x12345678#32]) =
      .next { failed [] with inp := [1] } ∧
    Event.host .powerOn ∉ [.block, .host (.pushByte 1), .host (.sendWord 0x03000001#32), .block] ∧
    (∀ w ∈ (failed [0x12345678#32]).cmd, w ≠ 0x01000000#32) ∧
    (∀ w, .host (.sendWord w) ∈ [Event.block, .host (.pushByte 1), .host (.sendWord 0x03000001#32), .block] →
      w ≠ 0x01000000#32) := by
  refine ⟨rfl, rfl, by simp, by simp [failed, running], ?_⟩
  intro w hw
  obtain rfl : w = 0x03000001#32 := by simpa using hw
  decide

/-- `RST` in RUN and in ERROR, `STOP` in RUN; that `START` opens a stream is the witness of `StartOpensTheStream`. -/
theorem test_witness_OperatingStateMoves :
    (∃ t, step (running 4 [0x01000000#32] []) = .next t ∧ t.opState = .idle) ∧
    (∃ t, step (running 4 [0x04000000#32] []) = .next t ∧ t.opState = .idle) ∧
    (∃ t, step (failed [0x01000000#32]) = .next t ∧ t.opState ≠ .error) := ⟨⟨_, rfl, rfl⟩, ⟨_, rfl, rfl⟩, ⟨_, rfl, by decide⟩⟩

theorem test_witness_ConfigurationIsFrozenWhileRunning :
    ∃ t, step (running 1 [0x03000001#32] [1, 0, 0, 0]) = .next t ∧
      (running 1 [0x03000001#32] [1, 0, 0, 0]).opState = .run ∧ t.opState = .run := ⟨_, rfl, rfl, rfl⟩

theorem test_witness_CauseAndInfoAreSticky :
    ∃ t, step (idle [0x04000000#32]) = .next t ∧
      (t.cause ≠ (idle [0x04000000#32]).cause ∨ t.info ≠ (idle [0x04000000#32]).info) := ⟨_, rfl, .inl (by decide)⟩

/-- A batch that appends two bytes, and a response. -/
theorem test_witness_StreamsAreQueues :
    (∃ t, step (running 1 [0x03000001#32] [1, 0, 0, 0]) = .next t ∧ t.out.length = 2) ∧
    (∃ t, step (idle [0x05000004#32]) = .next t ∧ t.rsp ≠ (idle [0x05000004#32]).rsp) :=
  ⟨⟨_, rfl, (pack_length [_]).trans rfl⟩, ⟨_, rfl, by decide⟩⟩

/-- The units of the bypassed stream are open. -/
theorem running_open (ws : List Word) (bs : List Byte) :
    (running 1 ws bs).toPipeline.Open Config.num Config.nmax :=
  ⟨⟨Nat.le_refl 1, Config.params.nmax_pos, finite_ofInt 0 (by decide), finite_ofInt 0 (by decide),
    (congrArg (!·) Config.params.laws.isZero_zero).symm, by simp [running, State.reset, Registers.reset, Pipeline.reset]⟩,
    ⟨Nat.le_refl 1, rfl, fun _ => ⟨rfl, rfl⟩, by simp [running, State.reset, Registers.reset, Pipeline.reset]⟩, finite_ofInt 1 (by decide)⟩

/-- A state in RUN that meets the invariant. -/
theorem running_inv (ws : List Word) (bs : List Byte) : (running 1 ws bs).Inv where
  mem := memory_wf_reset
  error_iff := by simp [running, State.reset, Registers.reset]
  info_zero := fun _ => rfl
  run_open := fun _ => running_open ws bs
  seeded := fun _ => rfl
  eos_closed := by simp [running, State.reset, Registers.reset]
  resid_eos := by simp [running, State.reset, Registers.reset]

/-- A state in RUN with the decimator engaged that meets the invariant. -/
theorem decimating_inv (ws : List Word) (bs : List Byte) : (decimating ws bs).Inv where
  mem := ⟨rfl, Config.params.lmax_pos, Config.params.lmax_pos, rfl, Nat.zero_le _⟩
  error_iff := by simp [decimating, running, State.reset, Registers.reset]
  info_zero := fun _ => rfl
  run_open := fun _ =>
    ⟨(running_open ws bs).1, ⟨Nat.one_le_ofNat (n := 2), rfl, by simp [decimating], fun _ =>
      ⟨Nat.le_refl 1, Nat.two_pos, Nat.two_pos, rfl, by simp [decimating], by
        intro c hc
        obtain rfl : c = Config.num.ofInt 1 := by simpa [decimating] using hc
        exact finite_ofInt 1 (by decide), rfl⟩⟩, finite_ofInt 1 (by decide)⟩
  seeded := fun _ => rfl
  eos_closed := by simp [decimating, running, State.reset, Registers.reset]
  resid_eos := by simp [decimating, running, State.reset, Registers.reset]

theorem test_witness_StepKeepsTheInvariant :
    (decimating [0x03000001#32] [1, 0, 0, 0]).Inv ∧
    step (decimating [0x03000001#32] [1, 0, 0, 0]) = .next ((decimating [] [1, 0, 0, 0]).processBatch 1) :=
  ⟨decimating_inv _ _, rfl⟩

theorem test_witness_RunsKeepTheInvariant :
    (running 1 [0x00000000#32] []).Inv ∧
    runEvents [.host (.pushByte 1), .block] (running 1 [0x00000000#32] []) = .next (running 1 [] [1]) :=
  ⟨running_inv _ _, rfl⟩

/-- The units of `decimating`, and a batch of `BATCH_N` samples. -/
theorem test_witness_NoEmptyWordIsRead :
    (decimating [] []).toPipeline.Open Config.num Config.nmax ∧ [((1 : Int), (0 : Int))].length ≤ (decimating [] []).mix.batchN.toNat :=
  ⟨(decimating_inv [] []).run_open rfl, by decide⟩

/-- The MIX unit of M1, and its bypass. -/
theorem test_witness_MixerRotatesOrPasses :
    (mixShift.construct numQuarter).shiftEn = true ∧ [((1000 : Int), (0 : Int))] ≠ [] ∧
    (mixShift.construct numQuarter).dsin[(2 : Nat)]? = some 0 ∧
    (mixShift.construct numQuarter).dcos[(2 : Nat)]? = some (-1) ∧
    (Pipeline.reset numQuarter).mix.shiftEn = false := by decide +kernel

theorem test_witness_DecimatorOutputCount :
    (Pipeline.reset numQuarter).dec.decEn = false ∧ ((decFilter 2).construct numQuarter).decEn = true ∧
    ((decFilter 2).construct numQuarter).dcnt.toNat < ((decFilter 2).construct numQuarter).decimM.toNat := by decide +kernel

/-- The DEC unit of K10, its last phase, and the six samples: two whole groups. -/
theorem test_witness_DecimatorClosedForm :
    let u := (decFilter 2).construct numQuarter
    u.decEn = true ∧ 1 ≤ u.ntaps.toNat ∧ u.coef.length = u.ntaps.toNat ∧ u.dph.toNat < u.decimM.toNat ∧ u.dcnt = 0 ∧
    u.dly.take u.ntaps.toNat = List.replicate u.ntaps.toNat ⟨numQuarter.ofInt 0, numQuarter.ofInt 0⟩ ∧
    (1 + 1) * u.decimM.toNat ≤ (List.replicate 6 (cxZero numQuarter)).length := by decide +kernel

theorem test_witness_DelayLineHoldsTheLastSamples :
    let u := (decFilter 2).construct numQuarter
    u.decEn = true ∧ 1 ≤ u.ntaps.toNat ∧ u.ntaps.toNat ≤ u.dly.length := by decide +kernel

theorem test_witness_DiscriminatorOutputs :
    let xs : List (Cx Rat) := [⟨1, 0⟩, ⟨0, 1⟩]
    xs[0]? = some ⟨1, 0⟩ ∧ xs[0 + 1]? = some ⟨0, 1⟩ := by decide +kernel

theorem test_witness_QuantizerPolicies : (-32768 : Int) ≤ -32768 ∧ (32767 : Int) ≤ 32767 := by decide

theorem test_witness_SampleBytes : -32768 ≤ (-32768 : Int) ∧ (-32768 : Int) ≤ 32767 := by decide

theorem test_witness_BatchSplitInvarianceWithoutShift : (Pipeline.reset numQuarter).mix.shiftEn = false := rfl

theorem test_witness_BatchOutputLength :
    (decimating [0x03000001#32] [1, 0, 0, 0]).Inv ∧ (decimating [0x03000001#32] [1, 0, 0, 0]).opState = .run ∧
    (1#24).toNat ≤ (decimating [0x03000001#32] [1, 0, 0, 0]).mix.batchN.toNat ∧
    4 * (1#24).toNat ≤ (decimating [0x03000001#32] [1, 0, 0, 0]).inp.length ∧
    exec (.batch 1) (decimating [0x03000001#32] [1, 0, 0, 0]) = .next ((decimating [] [1, 0, 0, 0]).processBatch 1) ∧
    (decimating [] []).dec.decEn = true ∧ (running 1 [] []).dec.decEn = false ∧ (running 1 [] []).Inv :=
  ⟨decimating_inv _ _, rfl, by decide, by decide, rfl, rfl, rfl, running_inv _ _⟩

theorem test_witness_FirstOutputIsZero :
    (running 1 [0x03000001#32] [1, 0, 0, 0]).dsc.havePrev = false ∧ (running 1 [] []).opState = .run ∧
    exec (.batch 1) (running 1 [0x03000001#32] [1, 0, 0, 0]) = .next ((running 1 [] [1, 0, 0, 0]).processBatch 1) :=
  ⟨rfl, rfl, rfl⟩

/-- The exact reals, and a MIX unit at the upper end of the interval that a batch advances; and the law that `wrap` cannot be the
identity: 4 is out of the interval. -/
theorem test_witness_PhaseStaysInItsInterval :
    (numReal fun _ => 0).Denotes id ∧
    (let u : MixUnit ℝ := { (Pipeline.reset (numReal fun _ => 0)).mix with shiftEn := true, phase := Real.pi, phaseInc := 1 }
     u.phase ≤ Real.pi ∧ -Real.pi < u.phase ∧ u.shiftEn = true ∧
     (numReal fun _ => 0).isFinite ((numReal fun _ => 0).add u.phase
       ((numReal fun _ => 0).mul ((numReal fun _ => 0).ofInt ([((1 : Int), (0 : Int))].length)) u.phaseInc)) = true) ∧
    (∀ (N : Num Value), N.Laws → N.wrap (N.ofInt 4) ≠ N.ofInt 4) := by
  have hp : -Real.pi < Real.pi := by linarith [Real.pi_pos]
  have hd : (numReal fun _ => 0).Denotes id := ⟨fun _ _ => rfl, fun a _ => numReal_wrap_mem _ a⟩
  refine ⟨hd, ⟨le_refl Real.pi, hp, rfl, rfl⟩, ?_⟩
  intro N hN h
  obtain ⟨val, hv⟩ := hN.denotes
  have h1 := (hv.wrap_mem _ (hN.ofInt_finite 4 (by decide))).2
  rw [h, hv.ofInt_exact 4 (by decide)] at h1
  have := Real.pi_lt_four
  push_cast at h1
  linarith

/-- Units at the exact reals: a shift, batches of at most two samples. -/
noncomputable def realUnits : Pipeline ℝ :=
  { Pipeline.reset (numReal fun _ => 0) with
    mix := { (Pipeline.reset (numReal fun _ => 0)).mix with shiftRate := 1, phaseInc := 2 * Real.pi, batchN := 2 } }

/-- The ends of the ranges of indices that are not listed, in and out of ERROR, and three samples. -/
theorem test_witness_RdAtTheExactReals :
    (∀ idx ∈ [0x08#8, 0x0F#8, 0x17#8, 0xFF#8], (0x08 ≤ idx.toNat ∧ idx.toNat ≤ 0x0F) ∨ 0x17 ≤ idx.toNat) ∧
    (Registers.reset (numReal fun _ => 0)).opState ≠ .error ∧
    ({ Registers.reset (numReal fun _ => 0) with opState := .error } : Registers ℝ).opState = .error ∧
    3 ≤ 3 ∧ [((1000 : Int), (0 : Int)), (1000, 0), (1000, 0)].length = 3 :=
  ⟨by decide, nofun, rfl, le_refl _, rfl⟩

theorem test_witness_PhaseIsContinuousAcrossBatches :
    realUnits.mix.shiftRate ≠ 0 ∧ (∀ b ∈ [[((1 : Int), (0 : Int)), (1, 0)]], b.length ≤ realUnits.mix.batchN.toNat) ∧
    [((1 : Int), (0 : Int))].length ≤ realUnits.mix.batchN.toNat ∧ [((1 : Int), (0 : Int))][0]? = some (1, 0) := by
  refine ⟨by simp [realUnits], ?_, ?_, rfl⟩ <;> simp [realUnits]

theorem test_witness_BatchSplitInvarianceInTheExactReals :
    [[((1 : Int), (0 : Int))], [(2, 0)]].flatten = [[((1 : Int), (0 : Int)), (2, 0)]].flatten ∧
    (∀ b ∈ [[((1 : Int), (0 : Int))], [(2, 0)]], b.length ≤ realUnits.mix.batchN.toNat) ∧
    (∀ c ∈ [[((1 : Int), (0 : Int)), (2, 0)]], c.length ≤ realUnits.mix.batchN.toNat) := by
  refine ⟨rfl, ?_, ?_⟩ <;> simp [realUnits]

/-- The upper end of the interval. -/
theorem test_witness_ToneGivesItsFrequency :
    realUnits.dsc.havePrev = false ∧ (0 : ℝ) < 1 ∧ -Real.pi < Real.pi ∧ Real.pi ≤ Real.pi :=
  ⟨rfl, one_pos, by linarith [Real.pi_pos], le_refl _⟩

theorem test_witness_DiscriminatorRangeInTheExactReals :
    (let u : DscUnit ℝ := { gain := 1, prev := ⟨1, 0⟩, havePrev := true }
     0 < u.gain ∧ u.havePrev = true ∧ u.prev ≠ ⟨0, 0⟩ ∧ (⟨-1, -0⟩ : Cx ℝ) = ⟨-u.prev.re, -u.prev.im⟩) ∧
    (0 : ℝ) < 2 ∧ (-1 : ℝ) < 0 := by
  refine ⟨⟨one_pos, rfl, ?_, rfl⟩, by norm_num, by norm_num⟩
  simp

theorem test_witness_HostTouchesStreamEndsOnly :
    ({ idle [] with out := [1] } : State).out = [1] ∧ ({ idle [] with rsp := [2] } : State).rsp = [2] := ⟨rfl, rfl⟩

/-- The smallest and the largest batch size; rates of 2^24 and more whose quotient an immediate holds, and the first quotient that
none does. -/
theorem test_witness_PseudoInstructionsExpand :
    (1#24) ≠ 0 ∧ (0xFFFFFF#24) ≠ 0 ∧ (0 : Int) < 48000000 ∧ (0 : Int) < 2000000 ∧ (2000000 : Int) ∣ 48000000 ∧
    (48000000 / 2000000 : Int) < 2 ^ 24 ∧ asmRates 48000000 2000000 = some [.setm 24] ∧
    asmRates (2 ^ 24 - 1) 1 = some [.setm 0xFFFFFF] ∧ asmRates (2 ^ 24) 1 = none := by decide

/-- A shift whose quotient is finite, where the domain has one. -/
theorem test_witness_PseudoInstructionsExpand_shift
    (h : Config.num.isFinite (Config.num.div (Config.num.ofInt 1000) (Config.num.ofInt 48000)) = true) :
    ∃ r, asmShiftHz 1000 48000 = [.setshift r] ∧
      Config.dec r = Config.num.div (Config.num.ofInt 1000) (Config.num.ofInt 48000) :=
  ⟨_, rfl, Config.params.dec_enc _ h⟩

theorem test_witness_StopFinishesTheRun :
    (running 1 [0x04000000#32] [1]).Inv ∧ (running 1 [0x04000000#32] [1]).opState = .run ∧
    (running 1 [0x04000000#32] [1]).cmd = [0x04000000#32] := ⟨running_inv _ _, rfl, rfl⟩

/-- A finished run, an open stream and a command that holds, and what may follow. -/
theorem test_witness_EndedRunsStayAsTheyEnded :
    appendsNothing [.block, .host .takeOut, .host .takeRsp, .host .powerOn] ∧
    appendsNothing [.block, .host .takeOut] ∧ Event.host .powerOn ∉ [.block, .host .takeOut] ∧
    RunFinished (idle []) [.block, .host .takeOut] ∧
    runEvents [.block, .host .takeOut] (idle []) = .next (idle []) ∧
    RunEndsWithOpenStream (running 4 [] []) [.block, .host .takeOut] ∧
    runEvents [.block, .host .takeOut] (running 4 [] []) = .next (running 4 [] []) ∧
    (running 4 [0x03000004#32] []).holds := by
  refine ⟨by simp [appendsNothing, Event.appends], by simp [appendsNothing, Event.appends], by simp,
    ⟨⟨rfl, fun h => h.1 rfl, nofun⟩, by simp [appendsNothing, Event.appends]⟩, rfl,
    ⟨rfl, rfl, by simp [appendsNothing, Event.appends]⟩, rfl, ⟨by simp [running], rfl⟩⟩

/-- One batch of one sample. -/
theorem test_witness_StreamingLoopEndsCleanly :
    let s : State :=
      { running 1 [0x02000000#32, 0x03000001#32, 0x04000000#32] [1, 0, 0, 0] with opState := .idle }
    s.opState = .idle ∧ s.cause = .noFault ∧ s.toPipeline.check Config.num Config.nmax = none ∧
    (∀ n ∈ [1#24], n.toNat ≤ s.mix.batchN.toNat) ∧ s.inp.length = 4 * ([1#24].map BitVec.toNat).sum ∧
    s.cmd = (streamProgram [] [1#24]).flatMap encode ∧ unpack s.inp = [[(1, 0)]].flatten ∧
    [[((1 : Int), (0 : Int))]].map List.length = [1#24].map BitVec.toNat := by
  refine ⟨rfl, rfl, ?_, fun n hn => ?_, rfl, rfl, rfl, rfl⟩
  rotate_left
  · obtain rfl : n = 1#24 := by simpa using hn
    exact Nat.le_refl 1
  have h1 := finite_ofInt 0 (by decide)
  have h2 := finite_ofInt 1 (by decide)
  have h3 : ¬ Config.nmax < 1 := Nat.not_lt.2 Config.params.nmax_pos
  simp [Pipeline.check, running, State.reset, Registers.reset, Pipeline.reset, h1, h2, h3]

end Sys2Proof.Tests
end

section
/-! Proofs: the exact reals as a numeric domain (R10, R11 of 00_scope.md). What `wrap` and `roundInt` are there, then the laws. -/

namespace Sys2Proof.Machine

/-- `wrap` at the exact reals is Mathlib's reduction modulo 2 pi into (-pi, pi], so its facts are the library's. -/
theorem numReal_wrap_eq_toIocMod (unset : Nat → ℝ) (a : ℝ) :
    (numReal unset).wrap a = toIocMod Real.two_pi_pos (-Real.pi) a := by
  have quotient : -((-Real.pi + 2 * Real.pi - a) / (2 * Real.pi)) = (a - Real.pi) / (2 * Real.pi) := by ring
  rw [toIocMod, toIocDiv_eq_neg_floor, ← Int.ceil_neg, quotient, zsmul_eq_mul, mul_comm]
  rfl

/-- `roundInt` keeps every integer, also beyond the 2^24 of law (e). -/
theorem numReal_roundInt_intCast (unset : Nat → ℝ) (z : Int) : (numReal unset).roundInt (z : ℝ) = z := by
  have half : ⌊(1 / 2 : ℝ)⌋ = 0 := by norm_num
  have magnitude : ⌊|(z : ℝ)| + 1 / 2⌋ = |z| := by
    rw [← Int.cast_abs, Int.floor_intCast_add, half, add_zero]
  calc (numReal unset).roundInt (z : ℝ)
      = (SignType.sign (z : ℝ) : Int) * ⌊|(z : ℝ)| + 1 / 2⌋ := rfl
    _ = (SignType.sign z : Int) * |z| := by rw [sign_intCast, magnitude]
    _ = z := sign_mul_abs z

/-- Laws (b) and (c), each real standing for itself. -/
theorem numReal_denotes_id (unset : Nat → ℝ) : (numReal unset).Denotes id where
  ofInt_exact _ _ := rfl
  wrap_mem a _ := by
    rw [numReal_wrap_eq_toIocMod]
    obtain ⟨above, below⟩ := toIocMod_mem_Ioc Real.two_pi_pos (-Real.pi) a
    exact ⟨above, below.trans_eq (by ring)⟩

/-- The laws of R11 at the exact reals, (a) to (e). -/
theorem numReal_laws (unset : Nat → ℝ) : (numReal unset).Laws where
  denotes := ⟨id, numReal_denotes_id unset⟩
  ofInt_finite _ _ := rfl
  isZero_zero := by simp [numReal]
  isZero_ofInt z nonzero := by simpa [numReal] using nonzero
  roundInt_zero_mul a _ := by
    have zero : (numReal unset).mul ((numReal unset).ofInt 0) a = ((0 : Int) : ℝ) := by simp [numReal]
    rw [zero, numReal_roundInt_intCast]
  roundInt_ofInt z _ := numReal_roundInt_intCast unset z

/-- Settles O49: the laws field by field, the interval from law (c), and the multiple of 2 pi read off the definition of `wrap`. -/
theorem exactRealsMeetTheLaws : Obligations.ExactRealsMeetTheLaws := by
  intro unset
  refine ⟨numReal_laws unset, numReal_denotes_id unset, fun a => ?_⟩
  obtain ⟨above, below⟩ := (numReal_denotes_id unset).wrap_mem a rfl
  exact ⟨above, below, ⌈(a - Real.pi) / (2 * Real.pi)⌉, rfl⟩

end Sys2Proof.Machine
end

section
/-! Proofs: the units of an open stream, in every numeric domain. What `START` establishes about them (R103, R125, R162), that
every batch keeps it (R126, R164), and that no batch reads a memory word without a value (R43, V5). -/

namespace Sys2Proof.Machine

section Units

variable {F : Type} {N : Num F}

/-! ### What `START` establishes -/

/-- The validation of `START` succeeds only on a configuration that meets all of R162. -/
theorem check_eq_none {nmax : Nat} {u : Pipeline F} (passes : u.check N nmax = none) :
    (1 ≤ u.mix.batchN.toNat ∧ u.mix.batchN.toNat ≤ nmax) ∧ 1 ≤ u.dec.decimM.toNat ∧
      (N.isFinite u.mix.shiftRate = true ∧ N.isFinite u.mix.phaseInc = true ∧ N.isFinite u.dsc.gain = true) ∧
      (2 ≤ u.dec.decimM.toNat → 1 ≤ u.dec.ntaps.toNat ∧ u.dec.dph.toNat < u.dec.decimM.toNat ∧
        ∀ k < u.dec.ntaps.toNat, N.isFinite (readWord N u.dec.coef k) = true) := by
  unfold Pipeline.check at passes
  split at passes
  · cases passes
  next batchFits =>
    split at passes
    · cases passes
    next factorPos =>
      split at passes
      · cases passes
      next allFinite =>
        have batch : 1 ≤ u.mix.batchN.toNat ∧ u.mix.batchN.toNat ≤ nmax := by simp at batchFits; omega
        refine ⟨batch, by omega, by simpa [and_assoc] using allFinite, fun decimates => ?_⟩
        rw [if_pos decimates] at passes
        split at passes
        · cases passes
        next tapsLoaded =>
          split at passes
          · cases passes
          next offsetFits =>
            split at passes
            · cases passes
            next tapsFinite => exact ⟨by omega, by omega, by simpa using tapsFinite⟩

/-- The MIX unit of a new stream (R103, R162). -/
theorem MixUnit.construct_open {nmax : Nat} {u : MixUnit F} (pos : 1 ≤ u.batchN.toNat) (fits : u.batchN.toNat ≤ nmax)
    (rate : N.isFinite u.shiftRate = true) (inc : N.isFinite u.phaseInc = true) : (u.construct N).Open N nmax := by
  simp only [MixUnit.construct]
  split
  next => exact ⟨pos, fits, rate, inc, rfl, fun _ => ⟨rfl, rfl⟩⟩
  next bypassed => exact ⟨pos, fits, rate, inc, rfl, fun on => absurd on bypassed⟩

/-- The DEC unit of a new stream (R125, R162). -/
theorem DecUnit.construct_open {u : DecUnit F} (loaded : u.coef.length = u.ntaps.toNat) (pos : 1 ≤ u.decimM.toNat)
    (filter : 2 ≤ u.decimM.toNat → 1 ≤ u.ntaps.toNat ∧ u.dph.toNat < u.decimM.toNat ∧
      ∀ k < u.ntaps.toNat, N.isFinite (readWord N u.coef k) = true) : (u.construct N).Open N := by
  simp only [DecUnit.construct, DecUnit.init]
  split
  next on =>
    obtain ⟨taps, offset, finite⟩ := filter (of_decide_eq_true on)
    refine ⟨pos, rfl, fun off => absurd (on.symm.trans off) (by decide), fun _ =>
      ⟨taps, offset, pos, loaded, by simp, ?_, rfl⟩⟩
    intro c hc
    obtain ⟨k, hk, rfl⟩ := List.mem_iff_getElem.1 hc
    rw [← readWord_of_lt N hk]
    exact finite k (loaded ▸ hk)
  next off => exact ⟨pos, rfl, fun _ => ⟨rfl, rfl⟩, fun on => absurd on off⟩

/-- The units that `START` makes of a configuration that passes its checks are those of an open stream (R162). -/
theorem Pipeline.construct_open {nmax : Nat} {u : Pipeline F} (loaded : u.dec.coef.length = u.dec.ntaps.toNat)
    (passes : u.check N nmax = none) : (u.construct N).Open N nmax := by
  obtain ⟨⟨batchPos, batchFits⟩, factorPos, ⟨rate, inc, gain⟩, filter⟩ := check_eq_none passes
  exact ⟨MixUnit.construct_open batchPos batchFits rate inc, DecUnit.construct_open loaded factorPos filter, gain⟩

/-! ### What every batch keeps -/

theorem DecUnit.push_decEn (u : DecUnit F) (x : Cx F) : (u.push N x).1.decEn = u.decEn := by rw [push_frame]

/-- The group counter stays inside its group (R126). -/
theorem DecUnit.push_dcnt_lt {u : DecUnit F} (x : Cx F) (count : u.dcnt.toNat < u.decimM.toNat) :
    (u.push N x).1.dcnt.toNat < u.decimM.toNat := by
  simp only [DecUnit.push]
  split
  next => exact Nat.zero_lt_of_lt count
  next => exact (Nat.mod_le _ _).trans_lt (show u.dcnt.toNat + 1 < u.decimM.toNat by omega)

theorem MixUnit.Open.run {nmax : Nat} {u : MixUnit F} (h : u.Open N nmax) (raw : List (Int × Int)) :
    (u.run N raw).1.Open N nmax := by
  rw [mixRun_frame]; exact h

theorem DecUnit.Open.push {u : DecUnit F} (h : u.Open N) (on : u.decEn = true) (x : Cx F) : (u.push N x).1.Open N := by
  obtain ⟨pos, latched, -, engaged⟩ := h
  obtain ⟨taps, offset, count, loaded, line, finite, scale⟩ := engaged on
  rw [push_frame]
  exact ⟨pos, latched, fun off => absurd (on.symm.trans off) (by decide), fun _ =>
    ⟨taps, offset, push_dcnt_lt x count, loaded, line.trans (shiftIn_length _ x _ taps line).ge, finite, scale⟩⟩

theorem DecUnit.Open.pushAll {u : DecUnit F} (h : u.Open N) (on : u.decEn = true) (a : List (Cx F)) :
    (u.pushAll N a).1.Open N := by
  induction a generalizing u with
  | nil => exact h
  | cons x xs ih => exact ih (h.push on x) ((push_decEn u x).trans on)

theorem DecUnit.Open.run {u : DecUnit F} (h : u.Open N) (a : List (Cx F)) : (u.run N a).1.Open N := by
  unfold DecUnit.run
  split
  next on => exact h.pushAll on a
  next => exact h

/-- After a batch the units are still those of an open stream (R164). -/
theorem Pipeline.Open.run {nmax : Nat} {u : Pipeline F} (h : u.Open N nmax) (raw : List (Int × Int)) :
    (u.run N raw).1.Open N nmax := by
  obtain ⟨mix, dec, gain⟩ := h
  refine ⟨mix.run raw, dec.run _, ?_⟩
  simp only [Pipeline.run]
  rw [dscRun_frame]
  exact gain

/-- The DSC unit remembers that it has taken a sample (R40, R142). -/
theorem DscUnit.run_havePrev (u : DscUnit F) (b : List (Cx F)) :
    (u.run N b).1.havePrev = (u.havePrev || !b.isEmpty) := by
  induction b generalizing u with
  | nil => simp [DscUnit.run]
  | cons x xs ih => simp [DscUnit.run, ih, DscUnit.disc]

/-- `PREV` is still zero after a batch that gave the DSC unit no sample (R39). -/
theorem DscUnit.Seeded.run {u : DscUnit F} (h : u.Seeded N) (b : List (Cx F)) : (u.run N b).1.Seeded N := by
  intro untouched
  rw [run_havePrev] at untouched
  obtain ⟨fresh, rfl⟩ : u.havePrev = false ∧ b = [] := by simpa using untouched
  exact h fresh

/-! ### What a word without a value would give has no effect -/

variable (e : Nat → F)

theorem MixUnit.rotateFrom_unset {u : MixUnit F} (raw : List (Int × Int)) (i : Nat)
    (sines : i + raw.length ≤ u.dsin.length) (cosines : i + raw.length ≤ u.dcos.length) :
    u.rotateFrom { N with unset := e } i raw = u.rotateFrom N i raw := by
  induction raw generalizing i with
  | nil => rfl
  | cons x xs ih =>
    rw [List.length_cons] at sines cosines
    have rotator : u.rotator { N with unset := e } i = u.rotator N i := by
      simp only [MixUnit.rotator, readWord_unset N e (show i < u.dsin.length by omega),
        readWord_unset N e (show i < u.dcos.length by omega)]
      rfl
    simp only [MixUnit.rotateFrom, rotator, ih (i + 1) (by omega) (by omega)]
    rfl

/-- The MIX unit reads the phase table only where the table build of `START` has written it (R103, R104). -/
theorem MixUnit.Open.run_unset {nmax : Nat} {u : MixUnit F} (h : u.Open N nmax) {raw : List (Int × Int)}
    (fits : raw.length ≤ u.batchN.toNat) : u.run { N with unset := e } raw = u.run N raw := by
  obtain ⟨-, -, -, -, -, table⟩ := h
  unfold MixUnit.run
  split
  next engaged =>
    obtain ⟨sines, cosines⟩ := table (by simp_all)
    rw [rotateFrom_unset e raw 0 (by simpa [sines] using fits) (by simpa [cosines] using fits)]
    rfl
  next => rfl

/-- The filter sum reads the first `n` words of `COEF` and of `DLY` (R126). -/
theorem firSum_unset {coef : List F} {dly : List (Cx F)} {n : Nat} (taps : n ≤ coef.length) (line : n ≤ dly.length) :
    firSum { N with unset := e } coef dly n = firSum N coef dly n := by
  refine List.foldl_ext _ _ _ fun acc k hk => ?_
  rw [List.mem_range] at hk
  rw [readWord_unset N e (by omega), readPair_unset N e (by omega)]
  rfl

theorem DecUnit.Open.push_unset {u : DecUnit F} (h : u.Open N) (on : u.decEn = true) (x : Cx F) :
    u.push { N with unset := e } x = u.push N x := by
  obtain ⟨-, -, -, engaged⟩ := h
  obtain ⟨taps, -, -, loaded, line, -, -⟩ := engaged on
  have sum := firSum_unset (N := N) e loaded.ge (line.trans (shiftIn_length _ x _ taps line).ge)
  simp only [DecUnit.push, DecUnit.hold, sum]
  rfl

theorem DecUnit.Open.pushAll_unset {u : DecUnit F} (h : u.Open N) (on : u.decEn = true) (a : List (Cx F)) :
    u.pushAll { N with unset := e } a = u.pushAll N a := by
  induction a generalizing u with
  | nil => rfl
  | cons x xs ih =>
    simp only [DecUnit.pushAll, h.push_unset e on x, ih (h.push on x) ((push_decEn u x).trans on)]

/-- The DEC unit reads `COEF` and `DLY` below `NTAPS` only, where `LDTAPS` and `START` have written them (R43, R44). -/
theorem DecUnit.Open.run_unset {u : DecUnit F} (h : u.Open N) (a : List (Cx F)) :
    u.run { N with unset := e } a = u.run N a := by
  unfold DecUnit.run
  split
  next on => exact h.pushAll_unset e on a
  next => rfl

/-- The DSC unit reads no memory. -/
theorem DscUnit.run_unset (u : DscUnit F) (b : List (Cx F)) : u.run { N with unset := e } b = u.run N b := by
  induction b generalizing u with
  | nil => rfl
  | cons x xs ih => simp only [DscUnit.run, ih]; rfl

theorem Pipeline.Open.run_unset {nmax : Nat} {u : Pipeline F} (h : u.Open N nmax) {raw : List (Int × Int)}
    (fits : raw.length ≤ u.mix.batchN.toNat) : u.run { N with unset := e } raw = u.run N raw := by
  obtain ⟨mix, dec, -⟩ := h
  simp only [Pipeline.run, mix.run_unset e fits, dec.run_unset e, DscUnit.run_unset e]
  rfl

end Units

/-- Settles O37: unit by unit, every read of a batch falls on a word that `START` or `LDTAPS` has written. -/
theorem noEmptyWordIsRead : Obligations.NoEmptyWordIsRead :=
  fun _ _ _ _ raw e opened fits => ⟨opened.run_unset e fits, opened.run raw⟩

end Sys2Proof.Machine
end

section
/-! Proofs: the invariant (`State.Inv`), one lemma per operation on the state, then every step by `step_cases`. -/

namespace Sys2Proof.Machine

/-- The invariant speaks of the registers only. -/
theorem State.Inv.congr {s t : State} (h : s.Inv) (same : t.toRegisters = s.toRegisters) : t.Inv := by
  cases s; cases t
  obtain rfl := same
  exact ⟨h.mem, h.error_iff, h.info_zero, h.run_open, h.seeded, h.eos_closed, h.resid_eos⟩

/-- In IDLE and in RUN no fault is recorded. -/
theorem State.Inv.cause_noFault {s : State} (h : s.Inv) (alive : s.opState ≠ .error) : s.cause = .noFault :=
  Classical.not_not.1 fun recorded => alive (h.error_iff.2 recorded)

theorem State.Inv.popCmd {s : State} (h : s.Inv) (n : Nat) : (s.popCmd n).Inv := h.congr rfl

/-- Settles O34: every clause is about a register that power-on has set (R47). -/
theorem resetMeetsTheInvariant : Obligations.ResetMeetsTheInvariant where
  mem := memory_wf_reset
  error_iff := by simp
  info_zero := fun _ => rfl
  run_open := by simp
  seeded := fun _ => rfl
  eos_closed := by simp
  resid_eos := by simp

/-- `RST` (R161). -/
theorem State.inv_commandReset (s : State) : s.commandReset.Inv := State.Inv.congr resetMeetsTheInvariant rfl

/-- Fault entry (R183). -/
theorem State.Inv.raise {s : State} (h : s.Inv) {c : Cause} (fault : c ≠ .noFault) (w : Word) :
    (raise c w s).Inv where
  mem := h.mem
  error_iff := by simp [fault]
  info_zero := fun unrecorded => absurd unrecorded fault
  run_open := by simp
  seeded := h.seeded
  eos_closed := by simp
  resid_eos := h.resid_eos

/-- `START` (R162): the state was IDLE, so no fault is recorded. -/
theorem State.Inv.openStream {s : State} (h : s.Inv) (idle : s.opState = .idle)
    (passes : s.toPipeline.check Config.num Config.nmax = none) : s.openStream.Inv where
  mem := by
    obtain ⟨⟨-, fits⟩, -⟩ := check_eq_none passes
    exact memory_wf_openStream h.mem fits
  error_iff := by simp [h.cause_noFault (by simp [idle])]
  info_zero := h.info_zero
  run_open := by
    obtain ⟨loaded, -⟩ := h.mem
    exact fun _ => Pipeline.construct_open loaded passes
  seeded := fun _ => rfl
  eos_closed := by simp
  resid_eos := by simp

/-- `BATCH` (R163). -/
theorem State.Inv.processBatch {s : State} (h : s.Inv) (running : s.opState = .run) (n : U24) :
    (s.processBatch n).Inv where
  mem := by
    obtain ⟨-, ⟨-, -, -, engaged⟩, -⟩ := h.run_open running
    refine memory_wf_processBatch n h.mem fun on => ?_
    obtain ⟨taps, -, -, -, line, -⟩ := engaged on
    exact ⟨taps, line⟩
  error_iff := h.error_iff
  info_zero := h.info_zero
  run_open := fun _ => (h.run_open running).run _
  seeded := h.seeded.run _
  eos_closed := h.eos_closed
  resid_eos := h.resid_eos

/-- `STOP` (R165): the state was RUN, so no fault is recorded. -/
theorem State.Inv.closeStream {s : State} (h : s.Inv) (running : s.opState = .run) : s.closeStream.Inv where
  mem := h.mem
  error_iff := by simp [h.cause_noFault (by simp [running])]
  info_zero := h.info_zero
  run_open := by simp
  seeded := h.seeded
  eos_closed := by simp
  resid_eos := by simp

/-- A configuration command (R71): in IDLE the units are free, but for the form of the memories and for `PREV`. -/
theorem State.Inv.configure {s : State} (h : s.Inv) (idle : s.opState = .idle) (n : Nat) {p : Pipeline Value}
    (mem : Memory.wf { s.popCmd n with toPipeline := p }) (seeded : p.dsc.Seeded Config.num) :
    State.Inv { s.popCmd n with toPipeline := p } where
  mem := mem
  error_iff := h.error_iff
  info_zero := h.info_zero
  run_open := fun running => nomatch idle.symm.trans running
  seeded := seeded
  eos_closed := h.eos_closed
  resid_eos := h.resid_eos

/-- Every effect of a command keeps the invariant. -/
theorem State.Inv.effect {s t : State} {i : Instr} (h : s.Inv) (e : Effect s i t) : t.Inv := by
  cases e with
  | fault c fault => exact h.raise fault _
  | dropped => exact h.popCmd 1
  | nop => exact h.popCmd 1
  | rst => exact State.inv_commandReset _
  | start idle passes => exact (h.popCmd 1).openStream idle passes
  | batch n running => exact (h.popCmd 1).processBatch running n
  | hold => exact h
  | stop running => exact (h.popCmd 1).closeStream running
  | rd => exact h.congr rfl
  | ldtaps taps idle fits => exact h.configure idle _ (memory_wf_ldtaps _ taps h.mem fits) h.seeded
  | setshift _ idle => exact h.configure idle _ h.mem h.seeded
  | setn _ idle => exact h.configure idle _ h.mem h.seeded
  | setm _ idle => exact h.configure idle _ h.mem h.seeded
  | setdph _ idle => exact h.configure idle _ h.mem h.seeded
  | setgain _ idle => exact h.configure idle _ h.mem h.seeded
  | setqpol _ idle => exact h.configure idle _ h.mem h.seeded

/-- Settles O35: a step waits, drops a word, enters ERROR, or has the effect of a command. -/
theorem stepKeepsTheInvariant : Obligations.StepKeepsTheInvariant := by
  intro s t h stepped
  rcases step_cases stepped with ⟨-, rfl⟩ | ⟨w, -, -, -, ⟨-, rfl⟩ | ⟨-, rfl⟩⟩ | ⟨i, -, -, -, -, e⟩ |
    ⟨hd, -, -, -, -, ⟨-, rfl⟩ | ⟨c, fault, -, rfl⟩ | ⟨-, rfl⟩⟩
  · exact h
  · exact h.popCmd 1
  · exact h.raise (by decide) w
  · exact h.effect e
  · exact h.popCmd 1
  · exact h.raise fault _
  · exact h

end Sys2Proof.Machine
end

section
/-! Proofs: the delay line (R44, R126) and the phase (R36, R105), in every numeric domain. -/

namespace Sys2Proof.Machine

section Units

variable {F : Type} {N : Num F}

/-- One sample moves the words of the delay line in use up by one and leaves the others. -/
theorem shiftIn_eq {n : Nat} (x : Cx F) (dly : List (Cx F)) (used : 1 ≤ n) :
    shiftIn n x dly = (x :: dly.take (n - 1)) ++ dly.drop n := by
  rw [shiftIn, Nat.max_eq_left used, List.cons_append]

/-- The words in use after one sample. -/
theorem shiftIn_take {n : Nat} (x : Cx F) {dly : List (Cx F)} (used : 1 ≤ n) (line : n ≤ dly.length) :
    (shiftIn n x dly).take n = x :: dly.take (n - 1) := by
  rw [shiftIn_eq x dly used, List.take_left' (by simp; omega)]

/-- The words not in use are not touched (log 8). -/
theorem shiftIn_drop {n : Nat} (x : Cx F) {dly : List (Cx F)} (used : 1 ≤ n) (line : n ≤ dly.length) :
    (shiftIn n x dly).drop n = dly.drop n := by
  rw [shiftIn_eq x dly used, List.drop_left' (by simp; omega)]

/-- The first `n` entries of a list with `x` in it depend on the first `n - 1` entries behind `x` only. -/
theorem take_append_cons_take {α : Type} (n : Nat) (xs ys : List α) (x : α) :
    (xs ++ x :: ys.take (n - 1)).take n = (xs ++ x :: ys.take n).take n := by
  rw [List.take_append, List.take_append]
  congr 1
  cases room : n - xs.length with
  | zero => rfl
  | succ k =>
    rw [List.take_succ_cons, List.take_succ_cons, List.take_take, List.take_take]
    congr 2; omega

/-- The delay line after any samples (R44, R126). -/
theorem DecUnit.pushAll_dly (u : DecUnit F) (x : List (Cx F)) (used : 1 ≤ u.ntaps.toNat)
    (line : u.ntaps.toNat ≤ u.dly.length) :
    (u.pushAll N x).1.dly =
      (x.reverse ++ u.dly.take u.ntaps.toNat).take u.ntaps.toNat ++ u.dly.drop u.ntaps.toNat := by
  induction x generalizing u with
  | nil => simp [DecUnit.pushAll, List.take_take]
  | cons x xs ih =>
    have taps : (u.push N x).1.ntaps = u.ntaps := by rw [push_frame]
    have dly : (u.push N x).1.dly = shiftIn u.ntaps.toNat x u.dly := by rw [push_frame]
    have length : (u.push N x).1.dly.length = u.dly.length := by rw [dly, shiftIn_length _ x _ used line]
    calc (u.pushAll N (x :: xs)).1.dly = ((u.push N x).1.pushAll N xs).1.dly := rfl
      _ = (xs.reverse ++ x :: u.dly.take (u.ntaps.toNat - 1)).take u.ntaps.toNat ++ u.dly.drop u.ntaps.toNat := by
        rw [ih _ (taps ▸ used) (by rw [taps, length]; exact line), taps, dly, shiftIn_take x used line,
          shiftIn_drop x used line]
      _ = _ := by rw [take_append_cons_take, List.reverse_cons, List.append_assoc, List.singleton_append]

theorem MixUnit.construct_phase (u : MixUnit F) : (u.construct N).phase = N.ofInt 0 := by
  simp only [MixUnit.construct]; split <;> rfl

/-- A batch advances `PHASE` once, and only if the unit is engaged and there is a sample (R105, R106, R163). -/
theorem MixUnit.run_phase (u : MixUnit F) (raw : List (Int × Int)) :
    (u.run N raw).1.phase = if u.shiftEn && !raw.isEmpty then
      N.wrap (N.add u.phase (N.mul (N.ofInt raw.length) u.phaseInc)) else u.phase := by
  unfold MixUnit.run; split <;> rfl

end Units

/-- Settles O41, by induction on the samples. -/
theorem delayLineHoldsTheLastSamples : Obligations.DelayLineHoldsTheLastSamples := by
  intro F N u x on used line
  rw [DecUnit.run, if_pos on]
  exact u.pushAll_dly x used line

/-- Settles O48: a new stream's phase is `ofInt 0`, and a batch leaves the phase or wraps the advanced one. -/
theorem phaseStaysInItsInterval : Obligations.PhaseStaysInItsInterval := by
  intro F N
  refine ⟨fun laws => laws.denotes, fun val denotes u raw => ?_⟩
  have zero : val (u.construct N).phase = 0 := by
    rw [MixUnit.construct_phase, denotes.ofInt_exact 0 (by decide), Int.cast_zero]
  refine ⟨zero, by rw [zero]; exact ⟨neg_lt_zero.2 Real.pi_pos, Real.pi_pos.le⟩, fun above below finite => ?_⟩
  rw [MixUnit.run_phase]
  split
  · exact denotes.wrap_mem _ finite
  · exact ⟨above, below⟩

end Sys2Proof.Machine
end

section
/-! Proofs: what a step does to `STATE`, `CAUSE` and `INFO` (R23, R25, R26), and the frame of `BATCH` (R49). -/

namespace Sys2Proof.Machine

/-- What a command does to `STATE`, `CAUSE` and `INFO`: nothing, fault entry, or its own move. -/
theorem effect_status {s t : State} {i : Instr} (e : Effect s i t) :
    (t.opState = s.opState ∧ t.cause = s.cause ∧ t.info = s.info) ∨
      (s.opState ≠ .error ∧ t.opState = .error) ∨
      (i = .rst ∧ t.opState = .idle) ∨
      (i = .start ∧ s.opState = .idle ∧ t.opState = .run ∧ t.cause = s.cause ∧ t.info = s.info) ∨
      (i = .stop ∧ s.opState = .run ∧ t.opState = .idle ∧ t.cause = s.cause ∧ t.info = s.info) := by
  cases e with
  | fault c _ alive => exact .inr (.inl ⟨alive, rfl⟩)
  | rst => exact .inr (.inr (.inl ⟨rfl, rfl⟩))
  | start idle => exact .inr (.inr (.inr (.inl ⟨rfl, idle, rfl, rfl, rfl⟩)))
  | stop running => exact .inr (.inr (.inr (.inr ⟨rfl, running, rfl, rfl, rfl⟩)))
  | dropped | nop | batch | hold | rd | setshift | setn | setm | setdph | ldtaps | setgain | setqpol =>
    exact .inl ⟨rfl, rfl, rfl⟩

/-- What a step does to `STATE`, `CAUSE` and `INFO`, by the word at the head of `CMD`. -/
theorem step_status {s t : State} (h : step s = .next t) :
    (t.opState = s.opState ∧ t.cause = s.cause ∧ t.info = s.info) ∨
      (s.opState ≠ .error ∧ t.opState = .error) ∨
      (s.cmd.head? = some 0x01000000#32 ∧ t.opState = .idle) ∨
      (s.cmd.head? = some 0x02000000#32 ∧ s.opState = .idle ∧ t.opState = .run ∧
        t.cause = s.cause ∧ t.info = s.info) ∨
      (s.cmd.head? = some 0x04000000#32 ∧ s.opState = .run ∧ t.opState = .idle ∧
        t.cause = s.cause ∧ t.info = s.info) := by
  rcases step_cases h with ⟨-, rfl⟩ | ⟨w, -, -, -, ⟨-, rfl⟩ | ⟨alive, rfl⟩⟩ | ⟨i, -, rest, -, head, e⟩ |
    ⟨hd, -, -, -, -, ⟨-, rfl⟩ | ⟨c, -, alive, rfl⟩ | ⟨-, rfl⟩⟩
  · exact .inl ⟨rfl, rfl, rfl⟩
  · exact .inl ⟨rfl, rfl, rfl⟩
  · exact .inr (.inl ⟨alive, rfl⟩)
  · rw [head, List.head?_cons]
    rcases effect_status e with same | fault | ⟨rfl, reset⟩ | ⟨rfl, opened⟩ | ⟨rfl, closed⟩
    · exact .inl same
    · exact .inr (.inl fault)
    · exact .inr (.inr (.inl ⟨rfl, reset⟩))
    · exact .inr (.inr (.inr (.inl ⟨rfl, opened⟩)))
    · exact .inr (.inr (.inr (.inr ⟨rfl, closed⟩)))
  · exact .inl ⟨rfl, rfl, rfl⟩
  · exact .inr (.inl ⟨alive, rfl⟩)
  · exact .inl ⟨rfl, rfl, rfl⟩

/-- Settles O30: of the ways a step can change `STATE`, only `START` leads into RUN, and only `STOP` and `RST` into IDLE. -/
theorem operatingStateMoves : Obligations.OperatingStateMoves := by
  intro s t h
  rcases step_status h with ⟨same, -, -⟩ | ⟨alive, fault⟩ | ⟨head, idle⟩ | ⟨head, idle, run, -, -⟩ |
    ⟨head, run, idle, -, -⟩
  · cases hs : s.opState <;> simp [same, hs]
  · simp [alive, fault]
  · simp [head, idle]
  · simp [head, idle, run]
  · simp [head, idle, run]

/-- Settles O32: of the ways a step can change `STATE`, only fault entry and `RST` write `CAUSE` or `INFO`. -/
theorem causeAndInfoAreSticky : Obligations.CauseAndInfoAreSticky := by
  intro s t h changed
  rcases step_status h with ⟨-, cause, info⟩ | fault | ⟨head, -⟩ | ⟨-, -, -, cause, info⟩ | ⟨-, -, -, cause, info⟩
  · simp [cause, info] at changed
  · exact .inl fault
  · exact .inr head
  · simp [cause, info] at changed
  · simp [cause, info] at changed

/-! ### The frame of `BATCH` -/

/-- A batch that neither faults nor holds (R163). -/
theorem exec_batch_runs {s : State} {n : U24} (running : s.opState = .run) (fits : n.toNat ≤ s.mix.batchN.toNat)
    (there : 4 * n.toNat ≤ s.inp.length) : exec (.batch n) s = .next ((s.popCmd 1).processBatch n) := by
  have admitted : admission s.opState .batch = .ok := by rw [running]; rfl
  calc exec (.batch n) s = execBatch n s := rfl
    _ = _ := by rw [execBatch, gated_ok admitted, if_neg (by omega), if_neg (by simpa [State.inAvail] using there)]

section Units

variable {F : Type} {N : Num F}

theorem MixUnit.run_bypassed {u : MixUnit F} (off : u.shiftEn = false) (raw : List (Int × Int)) :
    u.run N raw = (u, raw.map (sample N)) := by simp [MixUnit.run, off]

theorem DecUnit.run_bypassed {u : DecUnit F} (off : u.decEn = false) (a : List (Cx F)) : u.run N a = (u, a) := by
  simp [DecUnit.run, off]

/-- What a batch never writes (R49). -/
theorem Pipeline.run_frame (u : Pipeline F) (raw : List (Int × Int)) :
    (u.run N raw).1 = { u with
      mix := { u.mix with phase := (u.run N raw).1.mix.phase }
      dec := { u.dec with
        dly := (u.run N raw).1.dec.dly, dcnt := (u.run N raw).1.dec.dcnt, yh := (u.run N raw).1.dec.yh }
      dsc := { u.dsc with prev := (u.run N raw).1.dsc.prev, havePrev := (u.run N raw).1.dsc.havePrev } } :=
  congr (congrArg₂ (Pipeline.mk · · · u.qnt) (mixRun_frame N _ _) (decRun_frame N _ _)) (dscRun_frame N _ _)

/-- A batch of no sample changes no unit and puts out nothing (R163, log 12). -/
theorem Pipeline.run_nil (u : Pipeline F) : u.run N [] = (u, []) := by
  simp [Pipeline.run, MixUnit.run, DecUnit.run, DecUnit.pushAll, DscUnit.run, QntUnit.run]

end Units

/-- Settles O21: the batch runs, and its frame is that of the four units. -/
theorem batchFrame : Obligations.BatchFrame := by
  intro s t n running fits there h
  obtain rfl : _ = t := Host.Outcome.next.inj ((exec_batch_runs running fits there).symm.trans h)
  refine ⟨?_, ⟨_, rfl⟩, fun short => by simp [short], fun off => ?_, fun off => ?_, ?_⟩
  · exact congrArg (fun p : Pipeline Value => { (s.popCmd 1).processBatch n with toPipeline := p })
      (s.toPipeline.run_frame (unpack (s.inp.take (4 * n.toNat))))
  · exact congrArg Prod.fst (MixUnit.run_bypassed off _)
  · exact congrArg Prod.fst (DecUnit.run_bypassed off _)
  · rintro rfl
    have nothing : s.toPipeline.run Config.num (unpack []) = (s.toPipeline, []) := s.toPipeline.run_nil
    simp [nothing, pack_nil]

end Sys2Proof.Machine
end

section
/-! Proofs: `RD` (R50, R166) and the fields of `STATUS` (R24). -/

namespace Sys2Proof.Machine

/-- The read map (R50): each register stands at its index, and no index has two registers. -/
theorem regAt_eq_some {idx : BitVec 8} {r : Reg} : regAt idx = some r ↔ r.index = idx := by
  constructor
  · intro found
    simpa using List.find?_some found
  · rintro rfl
    cases r <;> rfl

/-- The indices that the read map does not list (V3). -/
theorem regAt_eq_none {idx : BitVec 8} (unlisted : (0x08 ≤ idx.toNat ∧ idx.toNat ≤ 0x0F) ∨ 0x17 ≤ idx.toNat) :
    regAt idx = none := by
  refine Option.eq_none_iff_forall_ne_some.2 fun r found => ?_
  obtain rfl := regAt_eq_some.1 found
  revert unlisted
  cases r <;> decide

/-- `RD` is admitted in every state (R182). -/
theorem exec_rd (idx : BitVec 8) (s : State) :
    exec (.rd idx) s = .next ({ s.popCmd 1 with toRegisters := (s.toRegisters.rd idx).1 }.rspPush
      ((s.toRegisters.rd idx).2.elim [] Response.words)) :=
  gated_ok (w := (Instr.rd idx).head) (admission_eq_ok.2 (.inr (.inr (.inl rfl))))

/-- `RD` of a register of the read map. -/
theorem exec_rd_index (r : Reg) (s : State) :
    exec (.rd r.index) s = .next { s with cmd := s.cmd.drop 1, rsp := s.rsp ++ r.words s } := by
  have read : s.toRegisters.rd r.index = (s.toRegisters, some (r.read s.toRegisters)) := by
    rw [Registers.rd, regAt_eq_some.2 rfl]
  rw [exec_rd, read]; rfl

/-- `RD` of an index that is not listed, outside ERROR. -/
theorem exec_rd_unlisted_alive {idx : BitVec 8} {s : State} (unlisted : regAt idx = none) (alive : s.opState ≠ .error) :
    exec (.rd idx) s = .next (raise .badOperand (Instr.rd idx).head s) := by
  have fault : s.toRegisters.rd idx = (s.toRegisters.fault .badOperand (Instr.rd idx).head, none) := by
    rcases rd_cases idx s.toRegisters with ⟨r, found, -⟩ | ⟨-, dead, -⟩ | ⟨-, -, e⟩
    · exact nomatch unlisted.symm.trans found
    · exact absurd dead alive
    · exact e
  rw [exec_rd, fault, State.rspPush, Option.elim, List.append_nil]; rfl

/-- `RD` of an index that is not listed, in ERROR. -/
theorem exec_rd_unlisted_error {idx : BitVec 8} {s : State} (unlisted : regAt idx = none) (dead : s.opState = .error) :
    exec (.rd idx) s = .next (s.popCmd 1) := by
  have dropped : s.toRegisters.rd idx = (s.toRegisters, none) := by
    rcases rd_cases idx s.toRegisters with ⟨r, found, -⟩ | ⟨-, -, e⟩ | ⟨-, alive, -⟩
    · exact nomatch unlisted.symm.trans found
    · exact e
    · exact absurd dead alive
  rw [exec_rd, dropped, State.rspPush, Option.elim, List.append_nil]; rfl

/-- The words of `enc` by `NUM.W` (R83, R166). -/
theorem valueWords_eq (a : Value) :
    valueWords a = (List.range (Config.numW / 32)).map fun k => (Config.enc a).extractLsb' (32 * k) 32 := by
  have numWords : Config.numW / 32 = Config.numWords := Nat.mul_div_cancel_left _ (by decide)
  rw [numWords]; rfl

/-- Settles O24, row by row of the read map. -/
theorem rdPushesTheRegister : Obligations.RdPushesTheRegister := by
  intro s causeWord answers words
  have row (r : Reg) {ws : List Word} (reads : r.words s = ws) : answers r.index ws := reads ▸ exec_rd_index r s
  have value (r : Reg) {v : Value} (reads : r.read s.toRegisters = .value v) : answers r.index (words v) :=
    row r (by rw [Reg.words, reads]; exact valueWords_eq v)
  have cause : Reg.words .cause s = [causeWord] := by
    simp only [Reg.words, Reg.read, Response.words, causeWord]
    cases s.cause <;> rfl
  refine ⟨⟨row .status rfl, row .cause cause, row .info rfl, row .batchN rfl, row .decimM rfl, row .ntaps rfl,
    row .dph rfl, row .dcnt rfl, value .shiftRate rfl, value .phaseInc rfl, value .phase rfl, value .gain rfl,
    value .scale rfl, value .prevRe rfl, value .prevIm rfl⟩, fun idx unlisted => ⟨?_, ?_⟩⟩
  · exact exec_rd_unlisted_alive (regAt_eq_none unlisted)
  · exact exec_rd_unlisted_error (regAt_eq_none unlisted)

/-- Bits 1:0 of `STATUS`. -/
theorem statusWord_state {F : Type} (u : Registers F) : (statusWord u).extractLsb' 0 2 = u.opState.bits :=
  BitVec.extractLsb'_append_eq_right

/-- The bits of `STATUS` above `STATE`, bit 2 first, then zeros. -/
theorem statusWord_flags {F : Type} (u : Registers F) (k : Nat) :
    (statusWord u).getLsbD (k + 2) =
      [u.mix.shiftEn, u.dec.decEn, u.dsc.havePrev, qpolBit u.qnt.qpol, u.short, u.eos, u.resid].getD k false := by
  change BitVec.getLsbD (w := 23 + 1 + 1 + 1 + 1 + 1 + 1 + 1 + 2) (statusWord u) (k + 2) = _
  rw [statusWord]
  simp only [BitVec.getLsbD_append]
  rcases k with _ | _ | _ | _ | _ | _ | _ | k <;> simp

/-- Settles O25: each bit is read off the concatenation that makes up `STATUS`. -/
theorem statusWordBits : Obligations.StatusWordBits := by
  intro s w
  have flags := statusWord_flags s.toRegisters
  have policy : qpolBit s.qnt.qpol = decide (s.qnt.qpol = .sat) := by cases s.qnt.qpol <;> rfl
  refine ⟨exec_rd_index .status s, ?_, flags 0, flags 1, flags 2, (flags 3).trans policy, flags 4, flags 5, flags 6, ?_⟩
  · rw [statusWord_state]
    cases s.opState <;> rfl
  · intro k above
    obtain ⟨j, rfl⟩ : ∃ j, k = j + 7 + 2 := ⟨k - 9, by omega⟩
    exact flags (j + 7)

end Sys2Proof.Machine
end

section
/-! Proofs: commands that wait (R73, R87). What a step does at each point where the decoder of R87 can stop, then which of
these steps change nothing. -/

namespace Sys2Proof.Machine

/-! ### A step, by what the decoder answers -/

theorem step_of_cmd_nil {s : State} (empty : s.cmd = []) : step s = .next s := by
  rw [step, serve, empty]; rfl

theorem step_of_decode {s : State} {i : Instr} {rest : List Word} (decoded : decode s.cmd = .ok (i, rest)) :
    step s = exec i s := by rw [step, serve, decoded]

/-- A head word whose operand words are not all there. -/
theorem step_of_missing {s : State} {w : Word} {rest : List Word} {h : Head} (cmd : s.cmd = w :: rest)
    (head : decodeHead w = some h) (missing : rest.length < h.operandWords) : step s = awaitOperands h s := by
  have rejected : decode s.cmd = .error (.missingOperands h) := by
    rw [cmd, decode, head]
    exact if_pos missing
  rw [step, serve, rejected]

/-- `BATCH` has no operand words, so it is always whole. -/
theorem decode_batch (n : U24) (rest : List Word) : decode ((Instr.batch n).head :: rest) = .ok (.batch n, rest) := by
  rw [decode, Laws.HeadWord.batch n]; rfl

/-! ### A command whose operand words are missing -/

/-- The commands that have operand words are configuration commands (R84). -/
theorem configures_of_operandWords {h : Head} (operands : 0 < h.operandWords) : Op.configures h.op = true := by
  obtain ⟨op, imm⟩ := h
  cases op with
  | setshift | setn | setm | setdph | ldtaps | setgain | setqpol => rfl
  | nop | rst | start | batch | stop | rd => exact absurd operands (lt_irrefl 0)

/-- The row of R182 for the configuration commands. -/
theorem admission_of_configures {op : Op} (configures : Op.configures op = true) :
    admission .idle op = .ok ∧ admission .run op = .badState ∧ admission .error op = .dropped := by
  revert configures; cases op <;> decide

section Waiting

variable {s : State} {h : Head}

theorem awaitOperands_error (configures : Op.configures h.op = true) (dead : s.opState = .error) :
    awaitOperands h s = .next (s.popCmd 1) := by
  obtain ⟨-, -, dropped⟩ := admission_of_configures configures
  exact gated_dropped (dead ▸ dropped)

theorem awaitOperands_run (configures : Op.configures h.op = true) (running : s.opState = .run) :
    awaitOperands h s = .next (raise .badState h.word s) := by
  obtain ⟨-, badState, -⟩ := admission_of_configures configures
  exact gated_badState (running ▸ badState)

/-- In IDLE nothing but the operand check of `LDTAPS` is decided by the head word alone (R87 step 5). -/
theorem awaitOperands_idle (configures : Op.configures h.op = true) (idle : s.opState = .idle) :
    awaitOperands h s =
      if h.op = .ldtaps && tooManyTaps h.imm.toNat then .next (raise .badOperand h.word s) else .next s := by
  obtain ⟨admitted, -, -⟩ := admission_of_configures configures
  exact gated_ok (idle ▸ admitted)

theorem awaitOperands_tooManyTaps (idle : s.opState = .idle) (taps : h.op = .ldtaps)
    (tooMany : Config.lmax < h.imm.toNat) : awaitOperands h s = .next (raise .badOperand h.word s) := by
  rw [awaitOperands_idle (by rw [taps]; rfl) idle, if_pos (by simp [taps, tooManyTaps, tooMany])]

theorem awaitOperands_holds (configures : Op.configures h.op = true) (idle : s.opState = .idle)
    (fits : h.op = .ldtaps → h.imm.toNat ≤ Config.lmax) : awaitOperands h s = .next s := by
  rw [awaitOperands_idle configures idle, if_neg (by simpa [tooManyTaps] using fits)]

end Waiting

/-- Settles O7: the decoder stops at the head word, and the row of R182 for its command decides, but for the operand check of
`LDTAPS`. -/
theorem incompleteCommandsWait : Obligations.IncompleteCommandsWait := by
  refine ⟨fun s => step_of_cmd_nil, fun s w rest h cmd head missing => ?_⟩
  have configures := configures_of_operandWords (Nat.zero_lt_of_lt missing)
  obtain ⟨rfl, -⟩ := decodeHead_eq_some head
  have popped : s.popCmd 1 = { s with cmd := rest } := by rw [State.popCmd, cmd]; rfl
  have faulted (c : Cause) :
      raise c h.word s = { s with cmd := rest, cause := c, info := h.word, opState := .error } := by
    rw [raise_eq, cmd]; rfl
  rw [step_of_missing cmd head missing, ← popped, ← faulted, ← faulted]
  exact ⟨awaitOperands_error configures, awaitOperands_run configures, awaitOperands_tooManyTaps,
    awaitOperands_holds configures⟩

/-! ### Holds -/

/-- A command takes its head word from `CMD`, or is a `BATCH` that holds (R87, R73). -/
theorem effect_takes_or_holds {s t : State} {i : Instr} (e : Effect s i t) :
    (∃ k, 1 ≤ k ∧ t.cmd = s.cmd.drop k) ∨
      (t = s ∧ s.opState = .run ∧
        ∃ n, i = .batch n ∧ n.toNat ≤ s.mix.batchN.toNat ∧ s.inp.length < 4 * n.toNat) := by
  cases e with
  | hold n running fits short => exact .inr ⟨rfl, running, n, rfl, fits, short⟩
  | fault | dropped | nop | rst | start | batch | stop | rd => exact .inl ⟨1, le_rfl, rfl⟩
  | setn | setm | setdph | setqpol => exact .inl ⟨1, le_rfl, rfl⟩
  | setshift | setgain | ldtaps => exact .inl ⟨_, Nat.le_add_right 1 _, rfl⟩

/-- A step that takes a word from `CMD` is no hold. -/
theorem cmd_ne_drop {s : State} {k : Nat} (nonempty : s.cmd ≠ []) (takes : 1 ≤ k) : s.cmd ≠ s.cmd.drop k := by
  intro same
  have length := congrArg List.length same
  have := List.length_pos_iff.2 nonempty
  rw [List.length_drop] at length
  omega

/-- A `BATCH` in RUN whose samples are not all there (R163). -/
theorem exec_batch_holds {s : State} {n : U24} (running : s.opState = .run) (fits : n.toNat ≤ s.mix.batchN.toNat)
    (short : s.inp.length < 4 * n.toNat) : exec (.batch n) s = .next s := by
  have admitted : admission s.opState .batch = .ok := by rw [running]; rfl
  calc exec (.batch n) s = execBatch n s := rfl
    _ = .next s := by rw [execBatch, gated_ok admitted, if_neg (by omega), if_pos (by simpa [State.inAvail] using short)]

/-- Settles O10: every other way through a step takes a word from `CMD`. -/
theorem whatHolds : Obligations.WhatHolds := by
  intro s
  constructor
  · rintro ⟨nonempty, held⟩
    have takes {k : Nat} (pos : 1 ≤ k) := cmd_ne_drop nonempty pos
    rcases step_cases held with ⟨empty, -⟩ | ⟨w, rest, -, -, ⟨-, popped⟩ | ⟨-, raised⟩⟩ | ⟨i, -, rest, -, cmd, e⟩ |
      ⟨h, rest, cmd, head, missing, ⟨-, popped⟩ | ⟨c, -, -, raised⟩ | ⟨idle, -⟩⟩
    · exact absurd empty nonempty
    · exact absurd (congrArg State.cmd popped) (takes le_rfl)
    · exact absurd (congrArg State.cmd raised) (takes le_rfl)
    · rcases effect_takes_or_holds e with ⟨k, pos, dropped⟩ | ⟨-, running, n, rfl, fits, short⟩
      · exact absurd dropped (takes pos)
      · exact .inl ⟨n, rest, cmd, running, fits, short⟩
    · exact absurd (congrArg State.cmd popped) (takes le_rfl)
    · exact absurd (congrArg State.cmd raised) (takes le_rfl)
    · refine .inr ⟨h.word, rest, h, cmd, head, idle, missing, fun taps => Nat.le_of_not_lt fun tooMany => ?_⟩
      have faults : step s = .next (raise .badOperand h.word s) :=
        (step_of_missing cmd head missing).trans (awaitOperands_tooManyTaps idle taps tooMany)
      exact absurd (congrArg State.cmd (Host.Outcome.next.inj (held.symm.trans faults))) (takes le_rfl)
  · rintro (⟨n, rest, cmd, running, fits, short⟩ | ⟨w, rest, h, cmd, head, idle, missing, fits⟩)
    · refine ⟨by simp [cmd], ?_⟩
      rw [step_of_decode (cmd ▸ decode_batch n rest)]
      exact exec_batch_holds running fits short
    · refine ⟨by simp [cmd], ?_⟩
      rw [step_of_missing cmd head missing]
      exact awaitOperands_holds (configures_of_operandWords (Nat.zero_lt_of_lt missing)) idle fits

end Sys2Proof.Machine
end

section
/-! Proofs: what a step leaves alone, over all commands: the configuration of an open stream (R71, R210), and the ends of the
streams (R60, R61). -/

namespace Sys2Proof.Machine

/-! ### The configuration -/

/-- `sameConfig` speaks of the units only. -/
theorem State.sameConfig_of_toPipeline {s t : State} (same : t.toPipeline = s.toPipeline) : s.sameConfig t := by
  simp only [State.sameConfig, same, and_self]

/-- A batch writes no register that the units execute from (R49, R71). -/
theorem State.sameConfig_processBatch (s : State) (n : U24) : s.sameConfig (s.processBatch n) := by
  rw [State.sameConfig, State.processBatch_toPipeline, Pipeline.run_frame]
  exact ⟨rfl, rfl, rfl, rfl, rfl, rfl, rfl, rfl, rfl, rfl, rfl, rfl, rfl, rfl⟩

/-- A command that starts and ends in RUN has been a `BATCH` that ran, or has left the units alone. -/
theorem effect_sameConfig {s t : State} {i : Instr} (e : Effect s i t) (running : s.opState = .run)
    (stays : t.opState = .run) : s.sameConfig t := by
  cases e with
  | batch n => exact State.sameConfig_processBatch (s.popCmd 1) n
  | fault | rst | stop => cases stays
  | dropped | nop | hold | rd => exact State.sameConfig_of_toPipeline rfl
  | start idle => exact nomatch idle.symm.trans running
  | setshift _ idle | setn _ idle | setm _ idle | setdph _ idle | ldtaps _ idle | setgain _ idle | setqpol _ idle =>
    exact nomatch idle.symm.trans running

/-- Settles O31: a step that runs no command leaves the units alone. -/
theorem configurationIsFrozenWhileRunning : Obligations.ConfigurationIsFrozenWhileRunning := by
  intro s t h running stays
  rcases step_cases h with ⟨-, rfl⟩ | ⟨w, -, -, -, ⟨-, rfl⟩ | ⟨-, rfl⟩⟩ | ⟨i, -, -, -, -, e⟩ |
    ⟨hd, -, -, -, -, ⟨-, rfl⟩ | ⟨c, -, -, rfl⟩ | ⟨-, rfl⟩⟩
  case inr.inr.inl => exact effect_sameConfig e running stays
  all_goals exact State.sameConfig_of_toPipeline rfl

/-! ### The streams -/

/-- What a command takes from `CMD` and `IN`. -/
theorem effect_takes {s t : State} {i : Instr} (e : Effect s i t) :
    (∃ k, t.cmd = s.cmd.drop k) ∧ ∃ k, t.inp = s.inp.drop k := by
  have cmd : ∃ k, t.cmd = s.cmd.drop k := by
    rcases effect_takes_or_holds e with ⟨k, -, dropped⟩ | ⟨rfl, -⟩
    · exact ⟨k, dropped⟩
    · exact ⟨0, rfl⟩
  refine ⟨cmd, ?_⟩
  cases e with
  | batch n => exact ⟨4 * n.toNat, rfl⟩
  | rst => exact ⟨s.inp.length, by simp⟩
  | stop => exact ⟨s.inp.length, by simp⟩
  | fault | dropped | nop | start | hold | rd => exact ⟨0, rfl⟩
  | setshift | setn | setm | setdph | ldtaps | setgain | setqpol => exact ⟨0, rfl⟩

/-- Only a `BATCH` in RUN appends to `OUT` (R163). -/
theorem effect_out {s t : State} {i : Instr} (e : Effect s i t) :
    t.out = s.out ∨ (s.opState = .run ∧ ∃ n bs, i = .batch n ∧ t.out = s.out ++ bs) := by
  cases e with
  | batch n running => exact .inr ⟨running, n, _, rfl, rfl⟩
  | fault | dropped | nop | rst | start | hold | stop | rd => exact .inl rfl
  | setshift | setn | setm | setdph | ldtaps | setgain | setqpol => exact .inl rfl

/-- Only an `RD` appends to `RSP` (R166). -/
theorem effect_rsp {s t : State} {i : Instr} (e : Effect s i t) :
    t.rsp = s.rsp ∨ ∃ idx ws, i = .rd idx ∧ t.rsp = s.rsp ++ ws := by
  cases e with
  | rd idx r => exact .inr ⟨idx, _, rfl, rfl⟩
  | fault | dropped | nop | rst | start | batch | hold | stop => exact .inl rfl
  | setshift | setn | setm | setdph | ldtaps | setgain | setqpol => exact .inl rfl

/-- A step takes words from `CMD` and leaves the other streams alone, or has the effect of the command at the head of
`CMD`. -/
theorem step_streams_or_effect {s t : State} (h : step s = .next t) :
    ((∃ k, t.cmd = s.cmd.drop k) ∧ t.inp = s.inp ∧ t.out = s.out ∧ t.rsp = s.rsp) ∨
      ∃ i rest, s.cmd = i.head :: rest ∧ Effect s i t := by
  rcases step_cases h with ⟨-, rfl⟩ | ⟨w, -, -, -, ⟨-, rfl⟩ | ⟨-, rfl⟩⟩ | ⟨i, -, rest, -, cmd, e⟩ |
    ⟨hd, -, -, -, -, ⟨-, rfl⟩ | ⟨c, -, -, rfl⟩ | ⟨-, rfl⟩⟩
  · exact .inl ⟨⟨0, rfl⟩, rfl, rfl, rfl⟩
  · exact .inl ⟨⟨1, rfl⟩, rfl, rfl, rfl⟩
  · exact .inl ⟨⟨1, rfl⟩, rfl, rfl, rfl⟩
  · exact .inr ⟨i, rest, cmd, e⟩
  · exact .inl ⟨⟨1, rfl⟩, rfl, rfl, rfl⟩
  · exact .inl ⟨⟨1, rfl⟩, rfl, rfl, rfl⟩
  · exact .inl ⟨⟨0, rfl⟩, rfl, rfl, rfl⟩

/-- Settles O33: stream by stream. -/
theorem streamsAreQueues : Obligations.StreamsAreQueues := by
  intro s t h
  rcases step_streams_or_effect h with ⟨cmd, inp, out, rsp⟩ | ⟨i, rest, cmd, e⟩
  · exact ⟨cmd, ⟨0, inp⟩, ⟨[], by simp [out]⟩, ⟨[], by simp [rsp]⟩, absurd out, absurd rsp⟩
  · obtain ⟨takesCmd, takesInp⟩ := effect_takes e
    refine ⟨takesCmd, takesInp, ?_, ?_, fun changed => ?_, fun changed => ?_⟩
    · rcases effect_out e with same | ⟨-, -, bs, -, appended⟩
      · exact ⟨[], by simp [same]⟩
      · exact ⟨bs, appended⟩
    · rcases effect_rsp e with same | ⟨-, ws, -, appended⟩
      · exact ⟨[], by simp [same]⟩
      · exact ⟨ws, appended⟩
    · obtain ⟨running, n, -, rfl, -⟩ := (effect_out e).resolve_left changed
      exact ⟨running, n, rest, cmd⟩
    · obtain ⟨idx, -, rfl, -⟩ := (effect_rsp e).resolve_left changed
      exact ⟨idx, rest, cmd⟩

end Sys2Proof.Machine
end

section
/-! Proofs: the host's actions and runs of block and host (R61, R72), and the bytes of a sample (R63, R64). -/

namespace Sys2Proof.Machine

/-- Settles O56: the definition of each action, and the rest of a stream whose head is removed. -/
theorem hostTouchesStreamEndsOnly : Obligations.HostTouchesStreamEndsOnly := by
  refine fun s => ⟨fun w => rfl, fun b => rfl, fun b bs out => ?_, fun w ws rsp => ?_⟩
  · rw [hostAct, out]; rfl
  · rw [hostAct, rsp]; rfl

/-- Power-on reaches the reset state; every other action leaves the registers alone (R72, R200). -/
theorem State.Inv.hostAct {s : State} (h : s.Inv) (a : HostAct) : (hostAct a s).Inv := by
  cases a with
  | powerOn => exact resetMeetsTheInvariant
  | sendWord | pushByte | takeOut | takeRsp => exact h.congr rfl

/-- What the steps of the block and the actions of the host keep, every run keeps. -/
theorem runEvents_keeps {P : State → Prop} (block : ∀ s t, P s → step s = .next t → P t)
    (host : ∀ a s, P s → P (hostAct a s)) {es : List Event} {s t : State} (start : P s)
    (run : runEvents es s = .next t) : P t := by
  induction es generalizing s with
  | nil => exact Host.Outcome.next.inj run ▸ start
  | cons event es ih =>
    cases event with
    | host a => exact ih (host a s start) run
    | block =>
      rw [runEvents] at run
      split at run
      · exact ih (block s _ start ‹_›) run
      · cases run
      · cases run

/-- Settles O36: step by step and action by action. -/
theorem runsKeepTheInvariant : Obligations.RunsKeepTheInvariant :=
  ⟨fun a _ h => h.hostAct a, fun _ _ _ h => runEvents_keeps stepKeepsTheInvariant (fun a _ h => h.hostAct a) h⟩

/-- The two bytes of a 16-bit pattern, put together again (R64). -/
theorem highByte_append_lowByte (x : BitVec 16) : x.extractLsb' 8 8 ++ x.extractLsb' 0 8 = x :=
  BitVec.extractLsb'_append_extractLsb' (w := 8) (len := 8)

/-- Settles O44: each clause is the equation of `unpack` or `pack` for a sample at the head; an int16 is read back from its
two bytes. -/
theorem sampleBytes : Obligations.SampleBytes := by
  refine ⟨fun _ _ _ _ _ => rfl, unpack_length, fun q qs low high => ?_, pack_nil⟩
  refine ⟨_, _, pack_cons q qs, ?_⟩
  rw [highByte_append_lowByte]
  exact BitVec.toInt_ofInt_eq_self (by decide) low (by omega)

end Sys2Proof.Machine
end

section
/-! Proofs: the decoder and the encoder undo each other (R81 to R86). What the decoder reads is a head word of the opcode map and
exactly the operand words it asks for; a head and its operand words, and a command, determine one another. -/

namespace Sys2Proof

/-! ### A head word and its operand words -/

/-- Every head word that the encoder writes is decoded by its own row of the opcode map (R82, R84). -/
theorem decodeHead_head (i : Instr) : decodeHead i.head = some ⟨i.op, i.imm⟩ :=
  decodeHead_of_mustBeZero _ _ i.imm_mustBeZero

/-- What the decoder answers `.ok` on: a head word of the opcode map, and exactly the operand words it asks for. -/
theorem decode_eq_ok_iff {ws rest : List Word} {i : Instr} :
    decode ws = .ok (i, rest) ↔
      ∃ w h ops, decodeHead w = some h ∧ ops.length = h.operandWords ∧ ws = w :: (ops ++ rest) ∧ i = h.assemble ops := by
  constructor
  · intro decoded
    cases ws with
    | nil => cases decoded
    | cons w tail =>
      rw [decode] at decoded
      split at decoded
      next => cases decoded
      next h head =>
        split at decoded
        next => cases decoded
        next enough =>
          cases decoded
          exact ⟨w, h, tail.take h.operandWords, head, by simpa using enough, by rw [List.take_append_drop], rfl⟩
  · rintro ⟨w, h, ops, head, length, rfl, rfl⟩
    simp [decode, head, ← length]

theorem flatMap_splitOperand_length (h : List FBits) :
    (h.flatMap splitOperand).length = Config.numWords * h.length := by
  simp [List.length_flatMap, Nat.mul_comm]

/-- The immediate of a well-formed `LDTAPS` counts its coefficients (R82). -/
theorem ldtaps_imm_toNat {h : List FBits} (wf : (Instr.ldtaps h).wf = true) : (Instr.ldtaps h).imm.toNat = h.length := by
  have bound : h.length < 2 ^ 24 := by simpa [Instr.wf] using wf
  exact (BitVec.toNat_ofNat ..).trans (Nat.mod_eq_of_lt bound)

/-- A well-formed command has as many operand words as its head word asks for (R86). -/
theorem operands_length_of_wf {i : Instr} (wf : i.wf = true) :
    i.operands.length = (⟨i.op, i.imm⟩ : Head).operandWords := by
  cases i with
  | setshift r | setgain r => exact splitOperand_length r
  | ldtaps h =>
    calc (h.flatMap splitOperand).length = Config.numWords * h.length := flatMap_splitOperand_length h
      _ = Config.numWords * (Instr.ldtaps h).imm.toNat := by rw [ldtaps_imm_toNat wf]
  | nop | rst | start | batch | stop | rd | setn | setm | setdph | setqpol => rfl

theorem joinOperand_take_splitOperand (b : FBits) : joinOperand ((splitOperand b).take Config.numWords) = b := by
  rw [List.take_of_length_le (splitOperand_length b).le, joinOperand_splitOperand]

/-- A well-formed command is put together again from its head word's fields and its operand words (R81 to R83). -/
theorem assemble_operands_of_wf {i : Instr} (wf : i.wf = true) : (⟨i.op, i.imm⟩ : Head).assemble i.operands = i := by
  cases i with
  | nop | rst | start | batch | stop | setn | setm | setdph => rfl
  | rd idx => exact congrArg Instr.rd ((BitVec.extractLsb'_setWidth_of_le (by decide)).trans BitVec.extractLsb'_eq_self)
  | setshift r => exact congrArg Instr.setshift (joinOperand_take_splitOperand r)
  | setgain g => exact congrArg Instr.setgain (joinOperand_take_splitOperand g)
  | setqpol p => cases p <;> rfl
  | ldtaps h =>
    have taps : takeOperands (Instr.ldtaps h).imm.toNat (h.flatMap splitOperand) = h := by
      rw [ldtaps_imm_toNat wf, takeOperands_flatMap]
    exact congrArg Instr.ldtaps taps

theorem decode_encode_append {i : Instr} (wf : i.wf = true) (rest : List Word) : decode (encode i ++ rest) = .ok (i, rest) :=
  decode_eq_ok_iff.2
    ⟨i.head, _, i.operands, decodeHead_head i, operands_length_of_wf wf, rfl, (assemble_operands_of_wf wf).symm⟩

/-- Settles O1: the head word and the number of operand words are the decoder's own, and assembling them gives the command. -/
theorem decodeOfEncodeIsTheCommand : Obligations.DecodeOfEncodeIsTheCommand :=
  fun _ rest wf => decode_encode_append wf rest

/-! ### The words of a decoded command -/

/-- Only `LDTAPS` has to be looked at, and it has as many coefficients as its 24-bit immediate says (R82). -/
theorem assemble_wf (h : Head) (ops : List Word) : (h.assemble ops).wf = true := by
  obtain ⟨op, imm⟩ := h
  cases op with
  | ldtaps => simpa [Head.assemble, Instr.wf] using imm.isLt
  | nop | rst | start | batch | stop | rd | setshift | setn | setm | setdph | setgain | setqpol => rfl

theorem splitOperand_joinOperand_take {ops : List Word} (length : ops.length = Config.numWords) :
    splitOperand (joinOperand (ops.take Config.numWords)) = ops := by
  rw [List.take_of_length_le length.le, splitOperand_joinOperand ops length]

/-- The command assembled from a head word's operand words has these operand words (R81, R83). -/
theorem operands_assemble {h : Head} {ops : List Word} (length : ops.length = h.operandWords) :
    (h.assemble ops).operands = ops := by
  obtain ⟨op, imm⟩ := h
  cases op with
  | setshift | setgain => exact splitOperand_joinOperand_take length
  | ldtaps => exact (flatMap_takeOperands imm.toNat ops length).1
  | nop | rst | start | batch | stop | rd | setn | setm | setdph | setqpol => exact (List.eq_nil_of_length_eq_zero length).symm

/-- Settles O2: the command has the head word and the operand words that it was decoded from. -/
theorem encodeOfDecodeIsTheWords : Obligations.EncodeOfDecodeIsTheWords := by
  intro ws rest i decoded
  obtain ⟨w, h, ops, head, length, rfl, rfl⟩ := decode_eq_ok_iff.1 decoded
  obtain ⟨rfl, mustBeZero⟩ := decodeHead_eq_some head
  refine ⟨assemble_wf h ops, ?_⟩
  rw [encode, head_assemble h ops mustBeZero length, operands_assemble length, List.cons_append]

/-! ### The length of a command (R86) -/

theorem encode_length (i : Instr) : (encode i).length = i.length := by
  rw [encode, List.length_cons, Nat.add_comm]
  cases i with
  | setshift r | setgain r => exact congrArg (1 + ·) (splitOperand_length r)
  | ldtaps h => exact congrArg (1 + ·) (flatMap_splitOperand_length h)
  | nop | rst | start | batch | stop | rd | setn | setm | setdph | setqpol => rfl

/-- `NUM.W` is a multiple of 32 (R6). -/
theorem numW_div_32 : Config.numW / 32 = Config.numWords := Nat.mul_div_cancel_left _ (by decide)

/-- Settles O4: an `F` operand takes `NUM.W / 32` words. -/
theorem commandLengthInWords : Obligations.CommandLengthInWords := by
  intro i
  refine ⟨encode_length i, ?_⟩
  rw [numW_div_32]
  cases i with
  | ldtaps h => exact congrArg (1 + ·) (Nat.mul_comm ..)
  | nop | rst | start | batch | stop | rd | setshift | setn | setm | setdph | setgain | setqpol => rfl

/-- Settles O5: the decoder run on each word. -/
theorem wordsOfTheOpcodeMapDecode : Obligations.WordsOfTheOpcodeMapDecode :=
  ⟨rfl, rfl, rfl, rfl, rfl, rfl, rfl, rfl, rfl, rfl, rfl, rfl, rfl, rfl, rfl, rfl, rfl, rfl, rfl, rfl⟩

end Sys2Proof
end

section
/-! Proofs: the illegal head words (R85). The opcode names at most one command, and then the must-be-zero bits of that command
decide; each mask of must-be-zero bits is read as a field of the word. -/

namespace Sys2Proof

/-! ### The opcode and the must-be-zero bits -/

/-- A head word is illegal when every row with its opcode asks for zeros where it has a 1. -/
theorem decodeHead_eq_none {w : Word} :
    decodeHead w = none ↔ ∀ op : Op, w.extractLsb' 24 8 = op.code → w.extractLsb' 0 24 &&& op.mustBeZero ≠ 0 := by
  constructor
  · intro illegal op code zeros
    have decoded := decodeHead_of_mustBeZero op _ zeros
    rw [← code, headWord_fields, illegal] at decoded
    cases decoded
  · intro reserved
    cases head : decodeHead w with
    | none => rfl
    | some h =>
      obtain ⟨rfl, zeros⟩ := decodeHead_eq_some head
      exact absurd (by rwa [Head.word, headWord_imm]) (reserved h.op (headWord_code ..))

/-- Different commands have different opcodes (R84): the decoder tells their head words apart. -/
theorem Op.code_injective : Function.Injective Op.code := by
  intro op op' same
  have head := decodeHead_of_mustBeZero op 0 BitVec.zero_and
  rw [same, decodeHead_of_mustBeZero op' 0 BitVec.zero_and] at head
  injection head with head
  injection head with named
  exact named.symm

/-- With the opcode of a command, the command's must-be-zero bits decide. -/
theorem decodeHead_eq_none_of_code {w : Word} {op : Op} (code : w.extractLsb' 24 8 = op.code) :
    decodeHead w = none ↔ w.extractLsb' 0 24 &&& op.mustBeZero ≠ 0 := by
  rw [decodeHead_eq_none]
  refine ⟨fun reserved => reserved op code, fun ones op' code' => ?_⟩
  rwa [← Op.code_injective (code.symm.trans code')]

/-- The opcodes of R84. -/
theorem opcode_mem_iff (c : BitVec 8) :
    c.toNat ∈ [0x00, 0x01, 0x02, 0x03, 0x04, 0x05, 0x10, 0x11, 0x20, 0x21, 0x22, 0x30, 0x40] ↔ ∃ op : Op, c = op.code := by
  constructor
  · intro listed
    have named : ∀ c ∈ [0x00, 0x01, 0x02, 0x03, 0x04, 0x05, 0x10, 0x11, 0x20, 0x21, 0x22, 0x30, 0x40],
        ∃ op ∈ [Op.nop, .rst, .start, .batch, .stop, .rd, .setshift, .setn, .setm, .setdph, .ldtaps, .setgain, .setqpol],
          c = op.code.toNat := by decide
    obtain ⟨op, -, code⟩ := named _ listed
    exact ⟨op, BitVec.eq_of_toNat_eq code⟩
  · rintro ⟨op, rfl⟩
    cases op <;> decide

/-- A mask of the high bits is zero on a value whose high field is zero. -/
theorem and_highMask_eq_zero {n k : Nat} (x : BitVec (n + k)) :
    x &&& (BitVec.allOnes n ++ 0#k) = 0#(n + k) ↔ x.extractLsb' k n = 0#n := by
  constructor
  · intro zeros
    simpa [BitVec.extractLsb'_and, BitVec.extractLsb'_append_eq_left] using congrArg (BitVec.extractLsb' k n) zeros
  · intro high
    rw [← BitVec.extractLsb'_append_extractLsb' (x := x), high, BitVec.and_append, BitVec.zero_and, BitVec.and_zero]
    exact BitVec.zero_append_zero

/-- The same for the high bits of the immediate, which are a field of the head word. -/
theorem imm_highMask_eq_zero {n k : Nat} (w : Word) :
    w.extractLsb' 0 (n + k) &&& (BitVec.allOnes n ++ 0#k) = 0#(n + k) ↔ w.extractLsb' k n = 0#n := by
  rw [and_highMask_eq_zero, BitVec.extractLsb'_extractLsb'_of_le (Nat.add_comm k n).le]

/-- The must-be-zero bits of `RD` are bits 23:8 of the head word (R82). -/
theorem rd_mustBeZero_iff (w : Word) : w.extractLsb' 0 24 &&& Op.rd.mustBeZero = 0 ↔ w.extractLsb' 8 16 = 0 :=
  imm_highMask_eq_zero (n := 16) (k := 8) w

/-- The must-be-zero bits of `SETQPOL` are bits 23:1 of the head word (R82). -/
theorem setqpol_mustBeZero_iff (w : Word) : w.extractLsb' 0 24 &&& Op.setqpol.mustBeZero = 0 ↔ w.extractLsb' 1 23 = 0 :=
  imm_highMask_eq_zero (n := 23) (k := 1) w

/-- Of a command without immediate, every bit of the immediate must be zero (R82). -/
theorem mustBeZero_all_iff {op : Op} (all : op.mustBeZero = BitVec.allOnes 24) (imm : U24) :
    imm &&& op.mustBeZero = 0 ↔ imm = 0 := by rw [all, BitVec.and_allOnes]

/-- Which opcodes are in the table, and the must-be-zero bits of each. -/
theorem decodeHead_eq_none_iff_fields (w : Word) : decodeHead w = none ↔
    (w.extractLsb' 24 8).toNat ∉ [0x00, 0x01, 0x02, 0x03, 0x04, 0x05, 0x10, 0x11, 0x20, 0x21, 0x22, 0x30, 0x40] ∨
    ((w.extractLsb' 24 8).toNat ∈ [0x00, 0x01, 0x02, 0x04, 0x10, 0x30] ∧ w.extractLsb' 0 24 ≠ 0) ∨
    ((w.extractLsb' 24 8).toNat = 0x05 ∧ w.extractLsb' 8 16 ≠ 0) ∨
    ((w.extractLsb' 24 8).toNat = 0x40 ∧ w.extractLsb' 1 23 ≠ 0) := by
  by_cases listed : ∃ op : Op, w.extractLsb' 24 8 = op.code
  · obtain ⟨op, code⟩ := listed
    rw [decodeHead_eq_none_of_code code, code]
    cases op with
    | nop | rst | start | stop | setshift | setgain =>
      rw [ne_eq, mustBeZero_all_iff (by decide)]; simp [Op.code]
    | batch | setn | setm | setdph | ldtaps => simp [Op.mustBeZero, Op.code]
    | rd => rw [ne_eq, rd_mustBeZero_iff]; simp [Op.code]
    | setqpol => rw [ne_eq, setqpol_mustBeZero_iff]; simp [Op.code]
  · refine iff_of_true (decodeHead_eq_none.2 fun op code => absurd ⟨op, code⟩ listed) (.inl ?_)
    rwa [opcode_mem_iff]

end Sys2Proof

namespace Sys2Proof.Machine

/-! ### A step at an illegal head word -/

theorem step_of_illegal {s : State} {w : Word} {rest : List Word} (cmd : s.cmd = w :: rest) (head : decodeHead w = none) :
    step s = illegalWord w s := by
  have rejected : decode s.cmd = .error (.illegal w) := by rw [cmd, decode, head]
  rw [step, serve, rejected]

theorem illegalWord_alive {w : Word} {s : State} (alive : s.opState ≠ .error) :
    illegalWord w s = .next (raise .illegalCommand w s) := by
  rw [illegalWord]
  split
  · exact absurd ‹_› alive
  · rfl
  · rfl

theorem illegalWord_error {w : Word} {s : State} (dead : s.opState = .error) : illegalWord w s = .next (s.popCmd 1) := by
  rw [illegalWord, dead]

/-- Settles O3: the fields of the word, and the decoder's answer to an illegal word in and out of ERROR. -/
theorem illegalHeadWords : Obligations.IllegalHeadWords := by
  refine ⟨decodeHead_eq_none_iff_fields, fun s w rest cmd head => ?_⟩
  rw [step_of_illegal cmd head]
  refine ⟨fun alive => ?_, fun dead => ?_⟩
  · rw [illegalWord_alive alive, raise_eq, cmd]; rfl
  · rw [illegalWord_error dead, State.popCmd, cmd]; rfl

end Sys2Proof.Machine
end

section
/-! Proofs: a step at a whole command (R87). It runs the command, which takes its own words from `CMD`. -/

namespace Sys2Proof.Machine

theorem step_of_encode {s : State} {i : Instr} {rest : List Word} (wf : i.wf = true) (cmd : s.cmd = encode i ++ rest) :
    step s = exec i s := step_of_decode (cmd ▸ decode_encode_append wf rest)

/-- Settles O6: the decoder answers with the command. -/
theorem stepRunsTheDecodedCommand : Obligations.StepRunsTheDecodedCommand :=
  ⟨fun _ _ _ => step_of_decode, fun _ _ _ => step_of_encode⟩

/-- What a command takes from `CMD`: all its words, or its head word only and is then in ERROR, or none as a `BATCH` that
holds (R87, R185). -/
theorem effect_takes_own_words {s t : State} {i : Instr} (e : Effect s i t) :
    t.cmd = s.cmd.drop i.length ∨ (t.cmd = s.cmd.drop 1 ∧ t.opState = .error) ∨
      (t = s ∧ s.opState = .run ∧ ∃ n, i = .batch n) := by
  cases e with
  | fault => exact .inr (.inl ⟨rfl, rfl⟩)
  | dropped dead => exact .inr (.inl ⟨rfl, dead⟩)
  | hold n running => exact .inr (.inr ⟨rfl, running, n, rfl⟩)
  | nop | rst | start | batch | stop | rd => exact .inl rfl
  | setshift | setn | setm | setdph | ldtaps | setgain | setqpol => exact .inl rfl

/-- Settles O9: the words of the command are as many as its length, and behind its head word stand its operand words. -/
theorem commandsTakeTheirOwnWords : Obligations.CommandsTakeTheirOwnWords := by
  intro s t i rest wf cmd stepped
  have behind : s.cmd.drop i.length = rest := by rw [cmd, ← encode_length, List.drop_left]
  have operands : s.cmd.drop 1 = i.operands ++ rest := by rw [cmd]; rfl
  rw [step_of_encode wf cmd] at stepped
  rw [← operands, ← behind]
  exact effect_takes_own_words (effect_of_exec stepped)

end Sys2Proof.Machine
end

section
/-! Proofs: the pseudo-instructions (R89, R206). -/

namespace Sys2Proof.Machine

/-! ### `STREAM` -/

/-- The batch sizes of `STREAM T` at `BATCH_N` = n. -/
def streamCounts (t : Nat) (n : U24) : List U24 :=
  List.replicate (t / n.toNat) n ++ if t % n.toNat = 0 then [] else [BitVec.ofNat 24 (t % n.toNat)]

theorem asmStream_eq (t : Nat) (n : U24) : asmStream t n = (streamCounts t n).map Instr.batch ++ [.stop] := by
  rw [asmStream, streamCounts, List.map_append, List.map_replicate, apply_ite (List.map Instr.batch)]
  rfl

section Batches

variable (t : Nat) {n : U24}

/-- The last batch of a `STREAM` is smaller than the others, so it has a size that a `BATCH` can carry. -/
theorem toNat_lastCount (pos : 0 < n.toNat) :
    (BitVec.ofNat 24 (t % n.toNat)).toNat = t % n.toNat := by
  have := Nat.mod_lt t pos
  exact (BitVec.toNat_ofNat ..).trans (Nat.mod_eq_of_lt (by omega))

theorem streamCounts_sum (pos : 0 < n.toNat) : ((streamCounts t n).map BitVec.toNat).sum = t := by
  have last : ((if t % n.toNat = 0 then [] else [BitVec.ofNat 24 (t % n.toNat)]).map BitVec.toNat).sum = t % n.toNat := by
    split
    next whole => exact whole.symm
    next => simpa using toNat_lastCount t pos
  calc ((streamCounts t n).map BitVec.toNat).sum = t / n.toNat * n.toNat + t % n.toNat := by
        rw [streamCounts, List.map_append, List.sum_append, last]; simp
    _ = t := Nat.div_add_mod' ..

theorem streamCounts_bounds (pos : 0 < n.toNat) {c : U24} (mem : c ∈ streamCounts t n) : 0 < c.toNat ∧ c.toNat ≤ n.toNat := by
  rcases List.mem_append.1 mem with full | last
  · rw [List.eq_of_mem_replicate full]
    exact ⟨pos, le_rfl⟩
  · split at last
    next => cases last
    next rem =>
      rw [List.mem_singleton.1 last, toNat_lastCount t pos]
      exact ⟨Nat.pos_of_ne_zero rem, (Nat.mod_lt t pos).le⟩

theorem streamCounts_dropLast {c : U24} (mem : c ∈ (streamCounts t n).dropLast) : c = n := by
  rw [streamCounts] at mem
  split at mem
  next =>
    rw [List.append_nil] at mem
    exact List.eq_of_mem_replicate (List.dropLast_subset _ mem)
  next =>
    rw [List.dropLast_concat] at mem
    exact List.eq_of_mem_replicate mem

end Batches

/-! ### `RATES` -/

/-- A ratio below 2^24 fits the immediate of `SETM`. -/
theorem toNat_ofInt_ratio {q : Int} (low : 0 ≤ q) (high : q < 2 ^ 24) : ((BitVec.ofInt 24 q).toNat : Int) = q := by
  rw [BitVec.toNat_ofInt]
  omega

theorem asmRates_some {fs fo : Int} (fsPos : 0 < fs) (foPos : 0 < fo) (whole : fo ∣ fs) (fits : fs / fo < 2 ^ 24) :
    ∃ m : U24, asmRates fs fo = some [.setm m] ∧ fs = fo * m.toNat := by
  refine ⟨BitVec.ofInt 24 (fs / fo), ?_, ?_⟩
  · rw [asmRates, if_neg (by omega), if_pos ⟨Int.emod_eq_zero_of_dvd whole, fits⟩]
  · rw [toNat_ofInt_ratio (Int.ediv_nonneg fsPos.le foPos.le) fits, Int.mul_ediv_cancel' whole]

theorem asmRates_none {fs fo : Int} (bad : ¬ (0 < fs ∧ 0 < fo ∧ fo ∣ fs ∧ fs / fo < 2 ^ 24)) : asmRates fs fo = none := by
  rw [asmRates]
  split_ifs with nonpos whole
  · rfl
  · exact absurd ⟨by omega, by omega, Int.dvd_of_emod_eq_zero whole.1, whole.2⟩ bad
  · rfl

/-- Settles O57: the batch sizes of `STREAM`, the two outcomes of `RATES`, and law (f) for `SHIFTHZ`. -/
theorem pseudoInstructionsExpand : Obligations.PseudoInstructionsExpand := by
  refine ⟨fun t n nonzero => ?_, fun fs fo => ?_, fun f fs => ⟨rfl, Config.params.dec_enc _⟩⟩
  · have pos : 0 < n.toNat := Nat.pos_of_ne_zero fun zero => nonzero (BitVec.eq_of_toNat_eq zero)
    exact ⟨streamCounts t n, asmStream_eq t n, streamCounts_sum t pos, fun c => streamCounts_bounds t pos,
      fun c => streamCounts_dropLast t⟩
  · by_cases good : 0 < fs ∧ 0 < fo ∧ fo ∣ fs ∧ fs / fo < 2 ^ 24
    · obtain ⟨fsPos, foPos, whole, fits⟩ := good
      have expands := asmRates_some fsPos foPos whole fits
      exact ⟨iff_of_true expands ⟨fsPos, foPos, whole, fits⟩, .inl expands⟩
    · have error := asmRates_none good
      exact ⟨iff_of_false (fun ⟨m, expands, _⟩ => nomatch error.symm.trans expands) good, .inr error⟩

end Sys2Proof.Machine
end

section
/-! Proofs: the configuration commands of R182, and of them `SETN`, `SETM`, `SETDPH`, `SETQPOL`, `SETSHIFT` (R101, R102, R121,
R122, R151). -/

namespace Sys2Proof.Machine

/-- The three ways of R182 lie before the own effect of a configuration command. -/
theorem exec_configures {i : Instr} (configures : Op.configures i.op = true) (s : State) :
    ∃ body, exec i s = gated i.op i.head s body := by
  cases i with
  | setshift | setn | setm | setdph | ldtaps | setgain | setqpol => exact ⟨_, by rfl⟩
  | nop | rst | start | batch | stop | rd => cases configures

/-- In RUN a configuration command raises `BadState` and takes its head word only (R71, R182). -/
theorem exec_configures_run {i : Instr} {s : State} (configures : Op.configures i.op = true) (running : s.opState = .run) :
    exec i s = .next { s with cmd := s.cmd.drop 1, cause := .badState, info := i.head, opState := .error } := by
  obtain ⟨-, badState, -⟩ := admission_of_configures configures
  obtain ⟨body, gate⟩ := exec_configures configures s
  rw [gate, gated_badState (running ▸ badState), raise_eq]

/-- In IDLE a configuration command goes on to its own effect (R71, R182). -/
theorem gated_configures_idle {op : Op} {w : Word} {s : State} {body : State → Result}
    (configures : Op.configures op = true) (idle : s.opState = .idle) : gated op w s body = body s := by
  obtain ⟨admitted, -, -⟩ := admission_of_configures configures
  exact gated_ok (idle ▸ admitted)

/-- Settles O11: the row of R182 for configuration commands, then each command's own effect. -/
theorem integerConfigurationCommandsWriteTheirRegister :
    Obligations.IntegerConfigurationCommandsWriteTheirRegister := by
  refine fun s => ⟨fun idle => ⟨fun n => ?_, fun m => ?_, fun p => ?_, fun p => ?_⟩, fun running =>
    ⟨fun n => exec_configures_run rfl running, fun m => exec_configures_run rfl running,
      fun p => exec_configures_run rfl running, fun p => exec_configures_run rfl running⟩⟩
  · rw [exec, execSetn, gated_configures_idle (op := .setn) rfl idle]; rfl
  · rw [exec, execSetm, gated_configures_idle (op := .setm) rfl idle]; rfl
  · rw [exec, execSetdph, gated_configures_idle (op := .setdph) rfl idle]; rfl
  · rw [exec, execSetqpol, gated_configures_idle (op := .setqpol) rfl idle]; rfl

/-- Settles O12, as O11. -/
theorem setshiftWritesRateAndIncrement : Obligations.SetshiftWritesRateAndIncrement := by
  refine fun s r => ⟨fun idle => ?_, fun running => ?_⟩
  · rw [exec, execSetshift, gated_configures_idle (op := .setshift) rfl idle]; rfl
  · have head : headWord 0x10#8 0 = 0x10000000#32 := by decide
    rw [← head]; exact exec_configures_run (i := .setshift r) rfl running

end Sys2Proof.Machine
end

section
/-! Proofs: one batch in the MIX unit, sample by sample, and the other three units on two batches, in every numeric domain
(R104 to R106, R126, R142, R152). -/

namespace Sys2Proof.Machine

section Units

variable {F : Type} {N : Num F}

/-! ### The MIX unit -/

theorem MixUnit.rotateFrom_eq_mapIdx (u : MixUnit F) (i : Nat) (raw : List (Int × Int)) :
    u.rotateFrom N i raw = raw.mapIdx fun k x => cmul N (sample N x) (u.rotator N (i + k)) := by
  induction raw generalizing i with
  | nil => rfl
  | cons x xs ih =>
    rw [MixUnit.rotateFrom, ih, List.mapIdx_cons]
    simp only [Nat.add_zero, Nat.add_right_comm, ← Nat.add_assoc]

/-- A batch with samples in the engaged unit (R104, R105). -/
theorem MixUnit.run_engaged {u : MixUnit F} {raw : List (Int × Int)} (on : u.shiftEn = true) (samples : raw ≠ []) :
    u.run N raw = (u.advance N raw.length, raw.mapIdx fun k x => cmul N (sample N x) (u.rotator N k)) := by
  simp [MixUnit.run, on, samples, rotateFrom_eq_mapIdx]

theorem MixUnit.run_nil (u : MixUnit F) : u.run N [] = (u, []) := by simp [MixUnit.run]

/-- The MIX unit gives one output per sample, engaged or not. -/
theorem MixUnit.run_length (u : MixUnit F) (raw : List (Int × Int)) : (u.run N raw).2.length = raw.length := by
  unfold MixUnit.run
  split
  · simp [rotateFrom_eq_mapIdx]
  · simp

/-- The multiplier of a sample whose table entry holds values (R104). -/
theorem MixUnit.rotator_of_entry {u : MixUnit F} {i : Nat} {ds dc : F} (sine : u.dsin[i]? = some ds)
    (cosine : u.dcos[i]? = some dc) : u.rotator N i =
      ⟨N.sub (N.mul (u.c0 N) dc) (N.mul (u.s0 N) ds), N.add (N.mul (u.s0 N) dc) (N.mul (u.c0 N) ds)⟩ := by
  simp [MixUnit.rotator, readWord, sine, cosine]

/-! ### The units behind the MIX unit, on two batches -/

theorem DecUnit.pushAll_append (u : DecUnit F) (a b : List (Cx F)) : u.pushAll N (a ++ b) =
    (((u.pushAll N a).1.pushAll N b).1, (u.pushAll N a).2 ++ ((u.pushAll N a).1.pushAll N b).2) := by
  induction a generalizing u with
  | nil => rfl
  | cons x xs ih => simp only [List.cons_append, DecUnit.pushAll, ih, List.append_assoc]

/-- The DEC unit carries its state over the border of two batches (R126, R127). -/
theorem DecUnit.run_append (u : DecUnit F) (a b : List (Cx F)) : u.run N (a ++ b) =
    (((u.run N a).1.run N b).1, (u.run N a).2 ++ ((u.run N a).1.run N b).2) := by
  cases en : u.decEn with
  | false => simp only [DecUnit.run_bypassed en]
  | true =>
    have still : (u.run N a).1.decEn = true := by rw [decRun_frame]; exact en
    rw [DecUnit.run, if_pos en, DecUnit.run, if_pos still, DecUnit.run, if_pos en, pushAll_append]

/-- The DSC unit carries its state over the border of two batches (R142). -/
theorem DscUnit.run_append (u : DscUnit F) (a b : List (Cx F)) : u.run N (a ++ b) =
    (((u.run N a).1.run N b).1, (u.run N a).2 ++ ((u.run N a).1.run N b).2) := by
  induction a generalizing u with
  | nil => rfl
  | cons x xs ih => simp only [List.cons_append, DscUnit.run, ih]

variable (N) in
/-- What the pipeline makes of what the MIX unit answers, `a`: DEC, DSC and QNT on its samples (R164). -/
def Pipeline.afterMix (u : Pipeline F) (a : MixUnit F × List (Cx F)) : Pipeline F × List Int :=
  let b := u.dec.run N a.2
  let d := u.dsc.run N b.2
  ({ u with mix := a.1, dec := b.1, dsc := d.1 }, u.qnt.run N d.2)

theorem Pipeline.run_eq_afterMix (u : Pipeline F) (raw : List (Int × Int)) :
    u.run N raw = u.afterMix N (u.mix.run N raw) := rfl

theorem Pipeline.afterMix_nil (u : Pipeline F) : u.afterMix N (u.mix, []) = (u, []) := by
  simp [Pipeline.afterMix, DecUnit.run, DecUnit.pushAll, DscUnit.run, QntUnit.run]

/-- Two batches behind the MIX unit are one, whatever that unit is in between. -/
theorem Pipeline.afterMix_append (u : Pipeline F) (m m' : MixUnit F) (a b : List (Cx F)) :
    u.afterMix N (m', a ++ b) = (((u.afterMix N (m, a)).1.afterMix N (m', b)).1,
      (u.afterMix N (m, a)).2 ++ ((u.afterMix N (m, a)).1.afterMix N (m', b)).2) := by
  simp only [Pipeline.afterMix, DecUnit.run_append, DscUnit.run_append, QntUnit.run, List.map_append]

end Units

/-- Settles O38: an engaged batch maps each sample by its index, and its multiplier is made of the table entry. -/
theorem mixerRotatesOrPasses : Obligations.MixerRotatesOrPasses := by
  refine fun F N u raw => ⟨u.run_length raw, fun on samples => ?_, ?_⟩
  · rw [MixUnit.run_engaged on samples]
    refine ⟨rfl, fun i x ds dc there sine cosine => ?_⟩
    rw [List.getElem?_mapIdx, there, Option.map_some, MixUnit.rotator_of_entry sine cosine]
    rfl
  · rintro (off | rfl)
    · exact MixUnit.run_bypassed off raw
    · exact u.run_nil

end Sys2Proof.Machine
end

section
/-! Proofs: the MIX unit in the exact reals (R103 to R107, R167). There the table entry and the starting phase multiply to the
cosine and sine of the running phase, so the unit acts as an oscillator without a table (`oscillate`), and that one has no
batch borders. -/

namespace Sys2Proof.Machine

section Oscillator

variable {F : Type} (N : Num F)

/-- Cosine and sine of the phase that sample `k` of a batch has, each divided by 32767. -/
def MixUnit.oscillator (u : MixUnit F) (k : Nat) : Cx F :=
  let phase := N.add u.phase (N.mul (N.ofInt k) u.phaseInc)
  ⟨N.div (N.cos phase) (N.ofInt 32767), N.div (N.sin phase) (N.ofInt 32767)⟩

/-- The MIX unit with `oscillator` in the place of the phase table: on any number of samples (`run_eq_oscillate`). -/
def MixUnit.oscillate (u : MixUnit F) (raw : List (Int × Int)) : MixUnit F × List (Cx F) :=
  if u.shiftEn && !raw.isEmpty then
    (u.advance N raw.length, raw.mapIdx fun k x => cmul N (sample N x) (u.oscillator N k))
  else (u, raw.map (sample N))

/-- The phase table is the one that `START` builds (R103). -/
def MixUnit.Tabled (u : MixUnit F) : Prop := u.shiftEn = true →
  u.dsin = (tablePhases N u.phaseInc u.batchN.toNat (N.ofInt 0)).map N.sin ∧
  u.dcos = (tablePhases N u.phaseInc u.batchN.toNat (N.ofInt 0)).map N.cos

variable {N}

theorem MixUnit.oscillate_bypassed {u : MixUnit F} (off : u.shiftEn = false) (raw : List (Int × Int)) :
    u.oscillate N raw = (u, raw.map (sample N)) := by simp [MixUnit.oscillate, off]

theorem MixUnit.oscillate_engaged {u : MixUnit F} {raw : List (Int × Int)} (on : u.shiftEn = true) (samples : raw ≠ []) :
    u.oscillate N raw =
      (u.advance N raw.length, raw.mapIdx fun k x => cmul N (sample N x) (u.oscillator N k)) := by
  simp [MixUnit.oscillate, on, samples]

theorem MixUnit.oscillate_nil (u : MixUnit F) : u.oscillate N [] = (u, []) := by simp [MixUnit.oscillate]

theorem MixUnit.oscillate_frame (u : MixUnit F) (raw : List (Int × Int)) :
    (u.oscillate N raw).1 = { u with phase := (u.oscillate N raw).1.phase } := by
  unfold MixUnit.oscillate; split <;> rfl

theorem MixUnit.Tabled.oscillate {u : MixUnit F} (tabled : u.Tabled N) (raw : List (Int × Int)) :
    (u.oscillate N raw).1.Tabled N := by
  rw [oscillate_frame]; exact tabled

/-- What `START` makes of the MIX unit, but for the table (R162). -/
theorem MixUnit.construct_frame (u : MixUnit F) : u.construct N = { u with
    shiftEn := !N.isZero u.shiftRate, phase := N.ofInt 0
    dsin := (u.construct N).dsin, dcos := (u.construct N).dcos } := by
  simp only [MixUnit.construct]; split <;> rfl

theorem MixUnit.construct_batchN (u : MixUnit F) : (u.construct N).batchN = u.batchN := by rw [construct_frame]

theorem MixUnit.construct_shiftEn (u : MixUnit F) : (u.construct N).shiftEn = !N.isZero u.shiftRate := by
  rw [construct_frame]

theorem MixUnit.construct_tabled (u : MixUnit F) : (u.construct N).Tabled N := by
  simp only [MixUnit.construct]
  split
  next => exact fun _ => ⟨rfl, rfl⟩
  next off => exact fun on => absurd on off

end Oscillator

section ExactReals

variable {unset : Nat → ℝ}

/-! ### `wrap` and the functions that it keeps -/

/-- A function of period 2 pi does not see that a part of its argument was wrapped. -/
theorem periodic_wrap_add {f : ℝ → ℝ} (periodic : Function.Periodic f (2 * Real.pi)) (a b : ℝ) :
    f ((numReal unset).wrap a + b) = f (a + b) :=
  calc f ((numReal unset).wrap a + b) = f (a + b - ⌈(a - Real.pi) / (2 * Real.pi)⌉ * (2 * Real.pi)) := by
        congr 1; simp only [numReal]; ring
    _ = f (a + b) := periodic.sub_int_mul_eq _

theorem wrap_periodic : Function.Periodic (numReal unset).wrap (2 * Real.pi) := by
  rw [funext (numReal_wrap_eq_toIocMod unset)]
  exact toIocMod_periodic Real.two_pi_pos (-Real.pi)

/-- The table build stores `f` of the multiples of the increment (R103). -/
theorem tablePhases_map {f : ℝ → ℝ} (periodic : Function.Periodic f (2 * Real.pi)) (inc : ℝ) (n : Nat) (ph : ℝ) :
    (tablePhases (numReal unset) inc n ph).map f = (List.range n).map fun k : Nat => f (ph + k * inc) := by
  induction n generalizing ph with
  | zero => rfl
  | succ n ih =>
    rw [tablePhases, List.map_cons, ih, List.range_succ_eq_map, List.map_cons, List.map_map]
    congr 1
    · simp
    · refine List.map_congr_left fun k _ => ?_
      calc f ((numReal unset).wrap (ph + inc) + k * inc) = f (ph + inc + k * inc) := periodic_wrap_add periodic _ _
        _ = f (ph + (k + 1 : Nat) * inc) := by congr 1; push_cast; ring

/-! ### Without a table -/

/-- Table entry and starting phase multiply to the running phase: the addition theorems (R104, R107). -/
theorem MixUnit.Tabled.rotator {u : MixUnit ℝ} (tabled : u.Tabled (numReal unset)) (on : u.shiftEn = true) {k : Nat}
    (fits : k < u.batchN.toNat) : u.rotator (numReal unset) k = u.oscillator (numReal unset) k := by
  obtain ⟨sines, cosines⟩ := tabled on
  have sine : u.dsin[k]? = some (Real.sin (k * u.phaseInc)) := by
    rw [sines, tablePhases_map (f := (numReal unset).sin) Real.sin_periodic]
    simp [numReal, fits]
  have cosine : u.dcos[k]? = some (Real.cos (k * u.phaseInc)) := by
    rw [cosines, tablePhases_map (f := (numReal unset).cos) Real.cos_periodic]
    simp [numReal, fits]
  rw [rotator_of_entry sine cosine]
  simp only [MixUnit.oscillator, MixUnit.c0, MixUnit.s0, numReal, Cx.mk.injEq, Int.cast_natCast, Real.cos_add, Real.sin_add]
  constructor <;> ring

/-- On a batch that the table covers, the unit is the oscillator (R104). -/
theorem MixUnit.Tabled.run_eq_oscillate {u : MixUnit ℝ} (tabled : u.Tabled (numReal unset)) {raw : List (Int × Int)}
    (fits : raw.length ≤ u.batchN.toNat) : u.run (numReal unset) raw = u.oscillate (numReal unset) raw := by
  cases on : u.shiftEn with
  | false => rw [run_bypassed on, oscillate_bypassed on]
  | true =>
    cases raw with
    | nil => rw [run_nil, oscillate_nil]
    | cons x xs =>
      rw [run_engaged on (List.cons_ne_nil x xs), oscillate_engaged on (List.cons_ne_nil x xs)]
      congr 1
      refine List.mapIdx_eq_mapIdx_iff.2 fun k there => ?_
      rw [tabled.rotator on (there.trans_le fits)]

/-- Two advances of the phase are one (R105). -/
theorem MixUnit.advance_advance (u : MixUnit ℝ) (m n : Nat) :
    (u.advance (numReal unset) m).advance (numReal unset) n = u.advance (numReal unset) (m + n) := by
  have phase := periodic_wrap_add (f := (numReal unset).wrap) (unset := unset) wrap_periodic
    (u.phase + m * u.phaseInc) (n * u.phaseInc)
  have sum : u.phase + m * u.phaseInc + n * u.phaseInc = u.phase + (m + n : Nat) * u.phaseInc := by push_cast; ring
  rw [sum] at phase
  exact congrArg (fun p => { u with phase := p }) phase

/-- After `m` samples the oscillator goes on where it was (R107). -/
theorem MixUnit.oscillator_advance (u : MixUnit ℝ) (m k : Nat) :
    (u.advance (numReal unset) m).oscillator (numReal unset) k = u.oscillator (numReal unset) (k + m) := by
  have sum : u.phase + m * u.phaseInc + k * u.phaseInc = u.phase + (k + m : Nat) * u.phaseInc := by push_cast; ring
  have cosine := periodic_wrap_add (unset := unset) Real.cos_periodic (u.phase + m * u.phaseInc) (k * u.phaseInc)
  have sine := periodic_wrap_add (unset := unset) Real.sin_periodic (u.phase + m * u.phaseInc) (k * u.phaseInc)
  rw [sum] at cosine sine
  exact congrArg₂ (fun c s : ℝ => (⟨c / 32767, s / 32767⟩ : Cx ℝ)) cosine sine

/-- The oscillator after any samples (R107). -/
theorem MixUnit.oscillator_oscillate {u : MixUnit ℝ} (on : u.shiftEn = true) (raw : List (Int × Int)) (k : Nat) :
    (u.oscillate (numReal unset) raw).1.oscillator (numReal unset) k = u.oscillator (numReal unset) (k + raw.length) := by
  cases raw with
  | nil => rw [oscillate_nil]; rfl
  | cons x xs => rw [oscillate_engaged on (List.cons_ne_nil x xs), oscillator_advance]

/-- The oscillator of a new stream (R107, R162). -/
theorem MixUnit.oscillator_construct (u : MixUnit ℝ) (k : Nat) :
    (u.construct (numReal unset)).oscillator (numReal unset) k =
      ⟨Real.cos (k * u.phaseInc) / 32767, Real.sin (k * u.phaseInc) / 32767⟩ := by
  rw [construct_frame]
  simp [oscillator, numReal]

/-- The oscillator has no batch borders (R107). -/
theorem MixUnit.oscillate_append (u : MixUnit ℝ) (xs ys : List (Int × Int)) :
    u.oscillate (numReal unset) (xs ++ ys) =
      (((u.oscillate (numReal unset) xs).1.oscillate (numReal unset) ys).1,
        (u.oscillate (numReal unset) xs).2 ++ ((u.oscillate (numReal unset) xs).1.oscillate (numReal unset) ys).2) := by
  cases on : u.shiftEn with
  | false => simp only [oscillate_bypassed on, List.map_append]
  | true =>
    cases xs with
    | nil => simp [oscillate_nil]
    | cons x xs =>
      cases ys with
      | nil => simp [oscillate_nil]
      | cons y ys =>
        have later : (u.advance (numReal unset) (x :: xs).length).shiftEn = true := on
        rw [oscillate_engaged on (by simp), oscillate_engaged on (by simp), oscillate_engaged later (by simp),
          advance_advance, List.length_append, List.mapIdx_append]
        simp only [oscillator_advance]

/-- A batch behind other samples: each of its samples has the oscillator of its index among all of them (R107). -/
theorem MixUnit.Tabled.run_after {u : MixUnit ℝ} (tabled : u.Tabled (numReal unset)) (on : u.shiftEn = true)
    (earlier : List (Int × Int)) {batch : List (Int × Int)} (fits : batch.length ≤ u.batchN.toNat) :
    ((u.oscillate (numReal unset) earlier).1.run (numReal unset) batch).2 = batch.mapIdx fun k x =>
      cmul (numReal unset) (sample (numReal unset) x) (u.oscillator (numReal unset) (k + earlier.length)) := by
  cases batch with
  | nil => rw [run_nil, List.mapIdx_nil]
  | cons x xs =>
    have still : (u.oscillate (numReal unset) earlier).1.shiftEn = true := by rw [oscillate_frame]; exact on
    have covers : (x :: xs).length ≤ (u.oscillate (numReal unset) earlier).1.batchN.toNat := by
      rw [oscillate_frame]; exact fits
    rw [(tabled.oscillate earlier).run_eq_oscillate covers, oscillate_engaged still (List.cons_ne_nil x xs)]
    simp only [oscillator_oscillate on]

/-! ### The batches of a stream -/

/-- A stream in batches that the table covers is the oscillator on the whole stream, and the other units behind it. -/
theorem Pipeline.runBatches_eq_oscillate {u : Pipeline ℝ} (tabled : u.mix.Tabled (numReal unset))
    {bs : List (List (Int × Int))} (fits : ∀ b ∈ bs, b.length ≤ u.mix.batchN.toNat) :
    u.runBatches (numReal unset) bs = u.afterMix (numReal unset) (u.mix.oscillate (numReal unset) bs.flatten) := by
  induction bs generalizing u with
  | nil => rw [List.flatten_nil, MixUnit.oscillate_nil, afterMix_nil, runBatches]
  | cons b bs ih =>
    obtain ⟨fitsHead, fitsTail⟩ := List.forall_mem_cons.1 fits
    have head : u.run (numReal unset) b = u.afterMix (numReal unset) (u.mix.oscillate (numReal unset) b) := by
      rw [run_eq_afterMix, tabled.run_eq_oscillate fitsHead]
    have mix : (u.run (numReal unset) b).1.mix = (u.mix.oscillate (numReal unset) b).1 := by rw [head]; rfl
    have size : (u.run (numReal unset) b).1.mix.batchN = u.mix.batchN := by rw [run_frame]
    rw [runBatches, ih (mix ▸ tabled.oscillate b) (size ▸ fitsTail), mix, head, List.flatten_cons,
      MixUnit.oscillate_append, afterMix_append]

end ExactReals

/-- Settles O52: either cut gives what the oscillator gives on the whole stream, and that one has no borders. -/
theorem batchSplitInvarianceInTheExactReals : Obligations.BatchSplitInvarianceInTheExactReals := by
  intro unset u₀ bs cs N u same fitsBs fitsCs
  have tabled : u.mix.Tabled N := u₀.mix.construct_tabled
  have size : u.mix.batchN = u₀.mix.batchN := u₀.mix.construct_batchN
  rw [Pipeline.runBatches_eq_oscillate tabled (size ▸ fitsBs), Pipeline.runBatches_eq_oscillate tabled (size ▸ fitsCs),
    same]

/-- Settles O51: the earlier batches leave the oscillator where all their samples have brought it, and in this batch it goes on to
index `t` of the stream. -/
theorem phaseIsContinuousAcrossBatches : Obligations.PhaseIsContinuousAcrossBatches := by
  intro unset u₀ earlier batch i x N u m t shift fitsEarlier fitsBatch there
  have tabled : u.mix.Tabled N := u₀.mix.construct_tabled
  have size : u.mix.batchN = u₀.mix.batchN := u₀.mix.construct_batchN
  have on : u.mix.shiftEn = true := by
    rw [show u.mix.shiftEn = !N.isZero u₀.mix.shiftRate from u₀.mix.construct_shiftEn]
    simpa [N, numReal] using shift
  have mix : m = (u.mix.oscillate N earlier.flatten).1 :=
    congrArg (fun r => r.1.mix) (Pipeline.runBatches_eq_oscillate tabled (size ▸ fitsEarlier))
  rw [mix, tabled.run_after on _ (size ▸ fitsBatch), List.getElem?_mapIdx, there, Option.map_some, Nat.add_comm]
  exact congrArg (fun c => some (cmul N (sample N x) c)) (u₀.mix.oscillator_construct _)

end Sys2Proof.Machine
end

section
/-! Proofs: the decimator's group counter and what it puts out (R126, R128), then the lengths of a batch along the pipeline (R163,
R164), in every numeric domain. -/

namespace Sys2Proof.Machine

section Units

variable {F : Type} {N : Num F}

/-! ### One sample in the DEC unit -/

theorem DecUnit.push_decimM (u : DecUnit F) (x : Cx F) : (u.push N x).1.decimM = u.decimM := by rw [push_frame]

theorem DecUnit.push_dph (u : DecUnit F) (x : Cx F) : (u.push N x).1.dph = u.dph := by rw [push_frame]

/-- The last sample of a group emits `YH` and starts the next group. -/
theorem DecUnit.push_ending {u : DecUnit F} (ends : u.dcnt.toNat + 1 = u.decimM.toNat) (x : Cx F) :
    (u.push N x).1.dcnt = 0 ∧ (u.push N x).2 = some (u.push N x).1.yh := by
  rw [DecUnit.push, if_pos ends]
  exact ⟨rfl, rfl⟩

/-- Every other sample of a group is counted and emits nothing. -/
theorem DecUnit.push_within {u : DecUnit F} (within : u.dcnt.toNat + 1 < u.decimM.toNat) (x : Cx F) :
    (u.push N x).1.dcnt.toNat = u.dcnt.toNat + 1 ∧ (u.push N x).2 = none := by
  rw [DecUnit.push, if_neg within.ne]
  exact ⟨Nat.mod_eq_of_lt (within.trans u.decimM.isLt), rfl⟩

/-- `YH` changes at position `DPH` of a group only. -/
theorem DecUnit.push_yh (u : DecUnit F) (x : Cx F) : (u.push N x).1.yh = u.hold N (u.push N x).1.dly := by
  rw [DecUnit.push]; split <;> rfl

/-- A sample is counted in `DCNT` or completes a group of `DECIM_M`. -/
theorem DecUnit.push_balance {u : DecUnit F} (count : u.dcnt.toNat < u.decimM.toNat) (x : Cx F) :
    u.decimM.toNat * (u.push N x).2.toList.length + (u.push N x).1.dcnt.toNat = u.dcnt.toNat + 1 := by
  rcases (show u.dcnt.toNat + 1 ≤ u.decimM.toNat from count).eq_or_lt with ends | within
  · obtain ⟨counter, emitted⟩ := push_ending (N := N) ends x
    simp [counter, emitted, ends]
  · obtain ⟨counter, emitted⟩ := push_within (N := N) within x
    simp [counter, emitted]

/-! ### How many values the DEC unit emits -/

/-- The samples taken are `DECIM_M` per value emitted and those in `DCNT`. -/
theorem DecUnit.pushAll_balance {u : DecUnit F} (count : u.dcnt.toNat < u.decimM.toNat) (a : List (Cx F)) :
    u.decimM.toNat * (u.pushAll N a).2.length + (u.pushAll N a).1.dcnt.toNat = u.dcnt.toNat + a.length ∧
      (u.pushAll N a).1.dcnt.toNat < u.decimM.toNat := by
  induction a generalizing u with
  | nil => simpa [DecUnit.pushAll] using count
  | cons x xs ih =>
    have first := push_balance (N := N) count x
    obtain ⟨later, counter⟩ := ih (u := (u.push N x).1) (by rw [push_decimM]; exact push_dcnt_lt x count)
    rw [push_decimM] at later counter
    refine ⟨?_, counter⟩
    simp only [DecUnit.pushAll, List.length_append, List.length_cons, Nat.mul_add]
    omega

/-- The number of values emitted, and the group counter in the end (R128). -/
theorem DecUnit.pushAll_count {u : DecUnit F} (count : u.dcnt.toNat < u.decimM.toNat) (a : List (Cx F)) :
    (u.pushAll N a).2.length = (u.dcnt.toNat + a.length) / u.decimM.toNat ∧
      (u.pushAll N a).1.dcnt.toNat = (u.dcnt.toNat + a.length) % u.decimM.toNat := by
  obtain ⟨balance, counter⟩ := pushAll_balance (N := N) count a
  obtain ⟨quotient, remainder⟩ :=
    (Nat.div_mod_unique (Nat.zero_lt_of_lt count)).2 ⟨(Nat.add_comm _ _).trans balance, counter⟩
  exact ⟨quotient.symm, remainder.symm⟩

theorem DecUnit.run_count {u : DecUnit F} (on : u.decEn = true) (count : u.dcnt.toNat < u.decimM.toNat)
    (a : List (Cx F)) : (u.run N a).2.length = (u.dcnt.toNat + a.length) / u.decimM.toNat ∧
      (u.run N a).1.dcnt.toNat = (u.dcnt.toNat + a.length) % u.decimM.toNat := by
  rw [DecUnit.run, if_pos on]
  exact pushAll_count count a

/-! ### A batch along the pipeline -/

/-- The DSC unit gives one output per sample (R142). -/
theorem DscUnit.run_length (u : DscUnit F) (b : List (Cx F)) : (u.run N b).2.length = b.length := by
  induction b generalizing u with
  | nil => rfl
  | cons x xs ih => rw [DscUnit.run, List.length_cons, ih, List.length_cons]

/-- Only the DEC unit changes the number of samples of a batch (R164). -/
theorem Pipeline.run_length (u : Pipeline F) (raw : List (Int × Int)) :
    (u.run N raw).2.length = (u.dec.run N (u.mix.run N raw).2).2.length := by
  rw [Pipeline.run, QntUnit.run, List.length_map, DscUnit.run_length]

/-- With the MIX unit bypassed a batch is the raw samples in the other units (R106, R164). -/
theorem Pipeline.run_bypassed {u : Pipeline F} (off : u.mix.shiftEn = false) (raw : List (Int × Int)) :
    u.run N raw = u.afterMix N (u.mix, raw.map (sample N)) := by
  rw [Pipeline.run_eq_afterMix, MixUnit.run_bypassed off]

end Units

/-- Settles O39, by the count of samples taken against values emitted. -/
theorem decimatorOutputCount : Obligations.DecimatorOutputCount :=
  fun _ _ _ a => ⟨fun off => DecUnit.run_bypassed off a, fun on count => DecUnit.run_count on count a⟩

/-- Settles O46: the batch runs, each value put out is two bytes, and the DEC unit alone decides how many there are. -/
theorem batchOutputLength : Obligations.BatchOutputLength := by
  intro s t n inv running fits there h
  obtain rfl : _ = t := Host.Outcome.next.inj ((exec_batch_runs running fits there).symm.trans h)
  obtain ⟨-, ⟨-, -, -, engaged⟩, -⟩ := inv.run_open running
  have samples : (s.mix.run Config.num (unpack (s.inp.take (4 * n.toNat)))).2.length = n.toNat := by
    rw [MixUnit.run_length, unpack_take_length there]
  rw [State.processBatch_out, List.length_append, pack_length, Pipeline.run_length]
  simp only [State.popCmd_out, State.popCmd_inp, State.popCmd_toRegisters]
  refine ⟨fun on => ?_, fun off => ?_⟩
  · obtain ⟨-, -, count, -⟩ := engaged on
    rw [(DecUnit.run_count on count _).1, samples]
  · rw [DecUnit.run_bypassed off, samples]

/-- Settles O45: the bypassed MIX unit keeps its state, and the units behind it carry theirs over the border of two batches. -/
theorem batchSplitInvarianceWithoutShift : Obligations.BatchSplitInvarianceWithoutShift := by
  intro F N u xs ys off
  have border : (u.run N xs).1.mix = u.mix := by rw [Pipeline.run_bypassed off]; rfl
  have still : (u.run N xs).1.mix.shiftEn = false := by rw [border, off]
  rw [Pipeline.run_bypassed still, border, Pipeline.run_bypassed off, Pipeline.run_bypassed off, List.map_append,
    u.afterMix_append u.mix]
  exact ⟨rfl, rfl⟩

end Sys2Proof.Machine
end

section
/-! Proofs: the closed form of the DEC unit (R129), in every numeric domain. The value of a group is computed at position `DPH`,
from the delay line of that moment, and is held until the group ends. -/

namespace Sys2Proof.Machine

section Units

variable {F : Type} {N : Num F}

theorem DecUnit.pushAll_head_of_ending {u : DecUnit F} (ends : u.dcnt.toNat + 1 = u.decimM.toNat) (x : Cx F)
    (xs : List (Cx F)) : (u.pushAll N (x :: xs)).2[0]? = some (u.push N x).1.yh := by
  obtain ⟨-, emitted⟩ := push_ending (N := N) ends x
  rw [DecUnit.pushAll, emitted]; rfl

/-- From position `DPH` on, the group's value stands in `YH` until the group ends and emits it. -/
theorem DecUnit.pushAll_head {u : DecUnit F} {x : Cx F} {xs : List (Cx F)} (reached : u.dph.toNat ≤ u.dcnt.toNat)
    (count : u.dcnt.toNat < u.decimM.toNat) (ends : u.decimM.toNat ≤ u.dcnt.toNat + (x :: xs).length) :
    (u.pushAll N (x :: xs)).2[0]? = some (u.push N x).1.yh := by
  induction xs generalizing u x with
  | nil => exact pushAll_head_of_ending (Nat.le_antisymm count ends) x []
  | cons y ys ih =>
    rcases (show u.dcnt.toNat + 1 ≤ u.decimM.toNat from count).eq_or_lt with last | within
    · exact pushAll_head_of_ending last x _
    · obtain ⟨counter, emitted⟩ := push_within (N := N) within x
      have past : (u.push N x).1.dcnt ≠ (u.push N x).1.dph := fun same => by
        rw [same, push_dph] at counter; omega
      rw [List.length_cons] at ends
      calc (u.pushAll N (x :: y :: ys)).2[0]? = ((u.push N x).1.pushAll N (y :: ys)).2[0]? := by
            rw [DecUnit.pushAll, emitted]; rfl
        _ = some ((u.push N x).1.push N y).1.yh :=
          ih (by rw [push_dph, counter]; omega) (by rw [push_decimM, counter]; exact within)
            (by rw [push_decimM, counter]; omega)
        _ = some (u.push N x).1.yh := by rw [push_yh (u.push N x).1, DecUnit.hold, if_neg past]

/-- The first value after position `DPH` of a group: the filter sum at that moment. -/
theorem DecUnit.pushAll_head_at_offset {u : DecUnit F} {x : Cx F} {xs : List (Cx F)} (position : u.dcnt = u.dph)
    (offset : u.dph.toNat < u.decimM.toNat) (ends : u.decimM.toNat ≤ u.dph.toNat + (x :: xs).length) :
    (u.pushAll N (x :: xs)).2[0]? =
      some (cscale N u.scale (firSum N u.coef (u.push N x).1.dly u.ntaps.toNat)) := by
  rw [pushAll_head (position ▸ le_rfl) (position ▸ offset) (position ▸ ends), push_yh, DecUnit.hold, if_pos position]

/-- From the start of a group, `g` groups and `DPH` samples give `g` values and bring `DCNT` to `DPH`. -/
theorem DecUnit.pushAll_reaches {u : DecUnit F} {a : List (Cx F)} {g : Nat} (start : u.dcnt = 0)
    (offset : u.dph.toNat < u.decimM.toNat) (here : a.length = g * u.decimM.toNat + u.dph.toNat) :
    (u.pushAll N a).2.length = g ∧ (u.pushAll N a).1.dcnt = u.dph := by
  have zero : u.dcnt.toNat = 0 := by rw [start]; rfl
  have positive : 0 < u.decimM.toNat := Nat.zero_lt_of_lt offset
  obtain ⟨emitted, counter⟩ := pushAll_count (N := N) (zero ▸ positive) a
  rw [zero, Nat.zero_add, here, Nat.mul_comm] at emitted counter
  exact ⟨by rw [emitted, Nat.mul_add_div positive, Nat.div_eq_of_lt offset, Nat.add_zero],
    BitVec.toNat_inj.1 (by rw [counter, Nat.mul_add_mod, Nat.mod_eq_of_lt offset])⟩

/-- The value of group `g`: the filter sum at the moment when the sample at position `DPH` of the group has been taken. -/
theorem DecUnit.pushAll_emits {u : DecUnit F} {x : List (Cx F)} {g t : Nat} (start : u.dcnt = 0)
    (offset : u.dph.toNat < u.decimM.toNat) (moment : t = g * u.decimM.toNat + u.dph.toNat) (inside : t < x.length)
    (ends : (g + 1) * u.decimM.toNat ≤ x.length) : (u.pushAll N x).2[g]? =
      some (cscale N u.scale (firSum N u.coef (u.pushAll N (x.take (t + 1))).1.dly u.ntaps.toNat)) := by
  obtain ⟨emitted, counter⟩ :=
    pushAll_reaches (N := N) (a := x.take t) start offset (by rw [List.length_take, ← moment]; omega)
  have position : (u.pushAll N (x.take t)).1.dcnt = (u.pushAll N (x.take t)).1.dph := by rw [counter, pushAll_frame]
  have rest : u.decimM.toNat ≤ u.dph.toNat + (x[t] :: x.drop (t + 1)).length := by
    rw [List.length_cons, List.length_drop]
    rw [Nat.add_mul] at ends; omega
  have line : ((u.pushAll N (x.take t)).1.push N x[t]).1.dly = (u.pushAll N (x.take (t + 1))).1.dly := by
    rw [← List.take_append_getElem inside, pushAll_append]; rfl
  calc (u.pushAll N x).2[g]? = (u.pushAll N (x.take t ++ x[t] :: x.drop (t + 1))).2[g]? := by
        rw [List.getElem_cons_drop, List.take_append_drop]
    _ = ((u.pushAll N (x.take t)).1.pushAll N (x[t] :: x.drop (t + 1))).2[0]? := by
        rw [pushAll_append, List.getElem?_append_right emitted.le, emitted, Nat.sub_self]
    _ = some _ := pushAll_head_at_offset position (by rw [pushAll_frame]; exact offset) (by rw [pushAll_frame]; exact rest)
    _ = _ := by rw [line, pushAll_frame]

/-- What the delay line of a new stream gives after sample `t`: input `t - k`, or zero before the first (R44, R125). -/
theorem readPair_delayLine {x rest : List (Cx F)} {z : Cx F} {n t k : Nat} (inside : t < x.length) (tap : k < n) :
    readPair N (((x.take (t + 1)).reverse ++ List.replicate n z).take n ++ rest) k =
      if k ≤ t then x.getD (t - k) z else z := by
  have taken : (x.take (t + 1)).length = t + 1 := by rw [List.length_take]; omega
  rw [readPair, List.getElem?_append_left (by simp; omega), List.getElem?_take_of_lt tap]
  split
  next recent =>
    rw [List.getElem?_append_left (by simp; omega), List.getElem?_reverse (by omega), taken,
      List.getElem?_take_of_lt (by omega), Nat.add_sub_cancel, List.getElem?_eq_getElem (by omega), Option.getD_some,
      List.getD_eq_getElem]
  next early =>
    rw [List.getElem?_append_right (by simp; omega), List.getElem?_replicate_of_lt (by simp; omega), Option.getD_some]

end Units

/-- Settles O40: the unit carries its state over the border of two batches, and the value of group `g` is the filter sum over the
delay line after input `g * M + DPH`. -/
theorem decimatorClosedForm : Obligations.DecimatorClosedForm := by
  refine fun F N u x g => ⟨fun y => u.run_append x y, ?_⟩
  intro on used loaded offset start fresh enough input sum
  have inside : g * u.decimM.toNat + u.dph.toNat < x.length := by rw [Nat.add_mul] at enough; omega
  have full : u.ntaps.toNat ≤ u.dly.length := by
    have taken := congrArg List.length fresh
    rw [List.length_take, List.length_replicate] at taken; omega
  have total : firSum N u.coef (u.pushAll N (x.take (g * u.decimM.toNat + u.dph.toNat + 1))).1.dly u.ntaps.toNat = sum := by
    rw [DecUnit.pushAll_dly u _ used full, fresh]
    refine List.foldl_ext _ _ _ fun acc k tap => ?_
    rw [List.mem_range] at tap
    rw [readPair_delayLine inside tap, readWord_of_lt N (loaded ▸ tap), ← List.getD_eq_getElem _ (N.ofInt 0)]
    rfl
  rw [DecUnit.run, if_pos on, DecUnit.pushAll_emits start offset rfl inside enough, total]
  rfl

end Sys2Proof.Machine
end

section
/-! Proofs: `LDTAPS` (R123). -/

namespace Sys2Proof.Machine

/-- Settles O14: the row of R182 for configuration commands, then the check of R123, made before any operand word is taken. -/
theorem ldtapsLoadsTheCoefficients : Obligations.LdtapsLoadsTheCoefficients := by
  refine fun s h => ⟨fun idle fits => ⟨?_, ?_⟩, fun idle tooMany => ?_, fun running => exec_configures_run rfl running⟩
  · rw [exec, execLdtaps, gated_configures_idle (op := .ldtaps) rfl idle, tooManyTaps, if_neg (by simpa using fits),
      Nat.mul_comm h.length]
    rfl
  · have := Config.params.lmax_le
    exact Nat.mod_eq_of_lt (by unfold Config.lmax at fits; omega)
  · rw [exec, execLdtaps, gated_configures_idle (op := .ldtaps) rfl idle, tooManyTaps, if_pos (by simpa using tooMany),
      raise_eq]

end Sys2Proof.Machine
end

section
/-! Proofs: the DSC unit on one batch, in every numeric domain (R142), the first output of a stream, and `SETGAIN` (R141). -/

namespace Sys2Proof.Machine

section Unit

variable {F : Type} {N : Num F}

variable (N) in
/-- The output of the DSC unit for the sample `y` that comes right after the sample `p` (R142). -/
def DscUnit.between (u : DscUnit F) (p y : Cx F) : F := N.mul (angle N (cmulc N y p)) u.gain

/-- Only the first sample of a batch is taken against `PREV`, each later one against the sample before it (R142). -/
theorem DscUnit.run_cons_outputs (u : DscUnit F) (x : Cx F) (xs : List (Cx F)) :
    (u.run N (x :: xs)).2 = (u.disc N x).2 :: List.zipWith (u.between N) (x :: xs) xs := by
  induction xs generalizing u x with
  | nil => rfl
  | cons y ys ih => exact congrArg ((u.disc N x).2 :: ·) (ih (u.disc N x).1 y)

/-- The outputs for the first samples of a sequence (R142). -/
theorem DscUnit.run_sequence (u : DscUnit F) (f : Nat → Cx F) (n : Nat) : (u.run N ((List.range (n + 1)).map f)).2 =
    (u.disc N (f 0)).2 :: (List.range n).map fun i => u.between N (f i) (f (i + 1)) := by
  have first : (List.range (n + 1)).map f = f 0 :: (List.range n).map (f ∘ Nat.succ) := by
    rw [List.range_succ_eq_map, List.map_cons, List.map_map]
  rw [first, run_cons_outputs, ← first]
  congr 1
  exact List.ext_getElem (by simp) fun i _ _ => by simp

/-- A batch with samples leaves the last of them in `PREV` (R39, R40, R142). -/
theorem DscUnit.run_cons_state (u : DscUnit F) (x : Cx F) (xs : List (Cx F)) :
    (u.run N (x :: xs)).1 = { u with havePrev := true, prev := (x :: xs).getLast (List.cons_ne_nil x xs) } := by
  induction xs generalizing u x with
  | nil => rfl
  | cons y ys ih => exact ih (u.disc N x).1 y

/-- A unit that remembers no sample answers the next one with 0 (R142). -/
theorem DscUnit.disc_fresh {u : DscUnit F} (fresh : u.havePrev = false) (x : Cx F) : (u.disc N x).2 = N.ofInt 0 := by
  simp [DscUnit.disc, fresh]

/-- The value 0 is quantized to 0 under both policies (R152, laws (b) and (e) of R11). -/
theorem QntUnit.quant_zero (laws : N.Laws) (u : QntUnit) : u.quant N (N.ofInt 0) = 0 := by
  have finite : N.isFinite (N.ofInt 32767) = true := laws.ofInt_finite 32767 (by decide)
  rw [QntUnit.quant, laws.roundInt_zero_mul _ finite]
  cases u.qpol <;> decide

/-- What the pipeline of a new stream puts out begins with 0, if it is anything (R142, R164). -/
theorem Pipeline.run_fresh (laws : N.Laws) {u : Pipeline F} (fresh : u.dsc.havePrev = false) (raw : List (Int × Int)) :
    (u.run N raw).2 = [] ∨ ((u.run N raw).1.dsc.havePrev = true ∧ ∃ qs, (u.run N raw).2 = 0 :: qs) := by
  simp only [Pipeline.run, QntUnit.run]
  cases (u.dec.run N (u.mix.run N raw).2).2 with
  | nil => exact .inl rfl
  | cons y ys =>
    have outputs := congrArg (List.map (u.qnt.quant N)) (u.dsc.run_cons_outputs (N := N) y ys)
    rw [DscUnit.disc_fresh fresh, List.map_cons, QntUnit.quant_zero laws] at outputs
    exact .inr ⟨by rw [DscUnit.run_cons_state], _, outputs⟩

end Unit

/-- Settles O42: the outputs of a batch pair each sample with the one before. -/
theorem discriminatorOutputs : Obligations.DiscriminatorOutputs := by
  intro F N u x xs r out
  have outputs : r.2 = (u.disc N x).2 :: List.zipWith out (x :: xs) xs := u.run_cons_outputs x xs
  refine ⟨u.run_length (x :: xs), by rw [outputs]; rfl, fun i p y before here => ?_, u.run_cons_state x xs, rfl⟩
  rw [List.getElem?_cons_succ] at here
  rw [outputs, List.getElem?_cons_succ, List.getElem?_zipWith, before, here]

/-- Settles O47: of the ways through a `BATCH` only the one that runs appends to `OUT`, and a quantized 0 is two zero bytes. -/
theorem firstOutputIsZero : Obligations.FirstOutputIsZero := by
  intro s t n fresh running h
  cases effect_of_exec h with
  | fault | dropped | hold => exact .inl rfl
  | batch =>
    rcases Pipeline.run_fresh Config.params.laws fresh (unpack (s.inp.take (4 * n.toNat))) with nothing | ⟨seen, qs, first⟩
    · exact .inl ((congrArg (s.out ++ pack ·) nothing).trans (List.append_nil _))
    · exact .inr ⟨seen, pack qs, congrArg (s.out ++ pack ·) first⟩

/-- Settles O13, as O12. -/
theorem setgainWritesGain : Obligations.SetgainWritesGain := by
  refine fun s g => ⟨fun idle => ?_, fun running => ?_⟩
  · rw [exec, execSetgain, gated_configures_idle (op := .setgain) rfl idle]; rfl
  · have head : headWord 0x30#8 0 = 0x30000000#32 := by decide
    rw [← head]; exact exec_configures_run (i := .setgain g) rfl running

end Sys2Proof.Machine
end

section
/-! Proofs: the DSC unit in the exact reals (R143 to R145). There a pair is a complex number and the output is the argument of a
sample times the conjugate of the one before, times `GAIN`. -/

namespace Sys2Proof.Machine

open scoped ComplexConjugate

/-- The complex number that a pair of reals stands for (R12). -/
def complexOf (x : Cx ℝ) : ℂ := ⟨x.re, x.im⟩

theorem complexOf_zero : complexOf ⟨0, 0⟩ = 0 := rfl

theorem complexOf_injective : Function.Injective complexOf := fun x y same => by
  cases x; cases y
  simpa [complexOf] using same

section Outputs

variable {unset : Nat → ℝ}

/-- R12's choice for the zero pair is the argument's own value at 0. -/
theorem angle_eq_arg (x : Cx ℝ) : angle (numReal unset) x = (complexOf x).arg := by
  unfold angle
  split
  next zero =>
    obtain ⟨re, im⟩ : x.re = 0 ∧ x.im = 0 := by simpa [numReal] using zero
    have origin : complexOf x = 0 := Complex.ext re im
    simp [origin, numReal]
  next => rfl

theorem complexOf_cmulc (x y : Cx ℝ) : complexOf (cmulc (numReal unset) x y) = complexOf x * conj (complexOf y) := by
  apply Complex.ext
  · simp [complexOf, cmulc, numReal]
  · simp [complexOf, cmulc, numReal]; ring

theorem DscUnit.between_real (u : DscUnit ℝ) (p y : Cx ℝ) :
    u.between (numReal unset) p y = (complexOf y * conj (complexOf p)).arg * u.gain := by
  rw [DscUnit.between, angle_eq_arg, complexOf_cmulc]; rfl

/-- One output in the exact reals (R142): the angle from `PREV` to the sample, times `GAIN`. -/
theorem DscUnit.disc_real (u : DscUnit ℝ) (x : Cx ℝ) : (u.disc (numReal unset) x).2 =
    if u.havePrev then (complexOf x * conj (complexOf u.prev)).arg * u.gain else 0 := by
  have zero : (numReal unset).ofInt 0 = 0 := Int.cast_zero
  rw [← u.between_real (unset := unset), ← zero]; rfl

/-- Every output is an angle of (-pi, pi] times `GAIN`, the first one the angle 0 (R143). -/
theorem DscUnit.disc_mem (u : DscUnit ℝ) (x : Cx ℝ) :
    ∃ θ : ℝ, -Real.pi < θ ∧ θ ≤ Real.pi ∧ (u.disc (numReal unset) x).2 = θ * u.gain := by
  rw [DscUnit.disc_real]
  split
  · exact ⟨_, Complex.neg_pi_lt_arg _, Complex.arg_le_pi _, rfl⟩
  · exact ⟨0, neg_lt_zero.2 Real.pi_pos, Real.pi_pos.le, (zero_mul _).symm⟩

/-! ### The corners (R144) -/

theorem DscUnit.disc_zero {u : DscUnit ℝ} {x : Cx ℝ} (zero : x = ⟨0, 0⟩ ∨ u.prev = ⟨0, 0⟩) :
    (u.disc (numReal unset) x).2 = 0 := by
  have product : complexOf x * conj (complexOf u.prev) = 0 := by
    rcases zero with sample | before
    · rw [sample, complexOf_zero, zero_mul]
    · rw [before, complexOf_zero, map_zero, mul_zero]
  rw [DscUnit.disc_real, product, Complex.arg_zero, zero_mul, ite_self]

/-- The product of opposite samples is the negative squared amplitude. -/
theorem DscUnit.disc_opposite {u : DscUnit ℝ} (seen : u.havePrev = true) (nonzero : u.prev ≠ ⟨0, 0⟩) :
    (u.disc (numReal unset) ⟨-u.prev.re, -u.prev.im⟩).2 = Real.pi * u.gain := by
  have opposite : complexOf ⟨-u.prev.re, -u.prev.im⟩ = -complexOf u.prev := rfl
  have amplitude : 0 < Complex.normSq (complexOf u.prev) := Complex.normSq_pos.2 (complexOf_injective.ne nonzero)
  rw [DscUnit.disc_real, if_pos seen, opposite, neg_mul, Complex.mul_conj, ← Complex.ofReal_neg,
    Complex.arg_ofReal_of_neg (neg_lt_zero.2 amplitude)]

theorem complexOf_scaled (k : ℝ) (x : Cx ℝ) : complexOf ⟨k * x.re, k * x.im⟩ = k * complexOf x := by
  apply Complex.ext <;> simp [complexOf]

/-- Scaling both samples scales their product by a positive real. -/
theorem DscUnit.disc_scaled (u : DscUnit ℝ) (x : Cx ℝ) {k : ℝ} (positive : 0 < k) :
    (({ u with prev := ⟨k * u.prev.re, k * u.prev.im⟩ } : DscUnit ℝ).disc (numReal unset) ⟨k * x.re, k * x.im⟩).2 =
      (u.disc (numReal unset) x).2 := by
  have product : complexOf ⟨k * x.re, k * x.im⟩ * conj (complexOf ⟨k * u.prev.re, k * u.prev.im⟩) =
      (k * k : ℝ) * (complexOf x * conj (complexOf u.prev)) := by
    rw [complexOf_scaled, complexOf_scaled, map_mul, Complex.conj_ofReal, Complex.ofReal_mul, mul_mul_mul_comm]
  rw [DscUnit.disc_real, DscUnit.disc_real, product, Complex.arg_real_mul _ (mul_pos positive positive)]

/-! ### Tones (R145) -/

/-- The sample of amplitude `a` and phase `θ`. -/
noncomputable def polar (a θ : ℝ) : Cx ℝ := ⟨a * Real.cos θ, a * Real.sin θ⟩

theorem complexOf_polar (a θ : ℝ) : complexOf (polar a θ) = a * Complex.exp (θ * Complex.I) := by
  apply Complex.ext <;> simp [complexOf, polar, Complex.exp_ofReal_mul_I_re, Complex.exp_ofReal_mul_I_im]

/-- Of two samples of one amplitude the output is the phase between them, if that lies in (-pi, pi]. -/
theorem DscUnit.between_polar (u : DscUnit ℝ) {a w : ℝ} (amplitude : 0 < a) (low : -Real.pi < w) (high : w ≤ Real.pi)
    (θ : ℝ) : u.between (numReal unset) (polar a θ) (polar a (w + θ)) = w * u.gain := by
  have product : complexOf (polar a (w + θ)) * conj (complexOf (polar a θ)) =
      (a * a : ℝ) * (Complex.cos w + Complex.sin w * Complex.I) := by
    rw [complexOf_polar, complexOf_polar, map_mul, ← Complex.exp_conj, map_mul, Complex.conj_ofReal, Complex.conj_ofReal,
      Complex.conj_I, mul_mul_mul_comm, ← Complex.exp_add, ← Complex.exp_mul_I, Complex.ofReal_mul, Complex.ofReal_add]
    congr 2; ring
  rw [DscUnit.between_real, product, Complex.arg_mul_cos_add_sin_mul_I (mul_pos amplitude amplitude) ⟨low, high⟩]

/-- Each sample of a tone is `w` radians past the one before (R145). -/
theorem DscUnit.run_tone {u : DscUnit ℝ} {a w : ℝ} (fresh : u.havePrev = false) (amplitude : 0 < a) (low : -Real.pi < w)
    (high : w ≤ Real.pi) (w₀ : ℝ) (n : Nat) :
    (u.run (numReal unset) ((List.range (n + 1)).map fun i : Nat => polar a (w * i + w₀))).2 =
      0 :: List.replicate n (w * u.gain) := by
  have pair (i : Nat) : u.between (numReal unset) (polar a (w * i + w₀)) (polar a (w * (i + 1 : Nat) + w₀)) =
      w * u.gain := by
    have step : w * (i + 1 : Nat) + w₀ = w + (w * i + w₀) := by push_cast; ring
    rw [step, u.between_polar amplitude low high]
  have first (x : Cx ℝ) : (u.disc (numReal unset) x).2 = 0 := by rw [u.disc_real, fresh]; rfl
  rw [DscUnit.run_sequence, first, List.map_congr_left fun i _ => pair i, List.map_const', List.length_range]

end Outputs

/-- Settles O54: the range is that of an angle times `GAIN`; the corners are those of a complex product. -/
theorem discriminatorRangeInTheExactReals : Obligations.DiscriminatorRangeInTheExactReals := by
  intro unset u x N
  obtain ⟨θ, low, high, output⟩ := u.disc_mem (unset := unset) x
  refine ⟨fun gain => ?_, fun gain => ?_, fun gain => ?_, DscUnit.disc_zero, fun seen nonzero opposite => ?_,
    fun k positive => u.disc_scaled x positive⟩
  · rw [output]
    exact ⟨mul_lt_mul_of_pos_right low gain, mul_le_mul_of_nonneg_right high gain.le⟩
  · rw [output]
    exact ⟨mul_le_mul_of_nonpos_right high gain.le, mul_lt_mul_of_neg_right low gain⟩
  · rw [output, gain, mul_zero]
  · rw [opposite]
    exact DscUnit.disc_opposite seen nonzero

/-- Settles O53: the samples are those of a tone, once the statement's list of reals is read as the range it comes from. -/
theorem toneGivesItsFrequency : Obligations.ToneGivesItsFrequency := by
  intro unset u a w w₀ n fresh amplitude low high
  simp only [bind_pure_comp, List.map_eq_map, List.map_map]
  exact DscUnit.run_tone fresh amplitude low high w₀ n

end Sys2Proof.Machine
end

section
/-! Proofs: the quantizer (R152, R153). WRAP is the library's reading of 16 bits as two's complement; rounding in the exact reals
is by half-open intervals of length 1, the closed end away from zero. -/

namespace Sys2Proof.Machine

/-! ### The policies -/

/-- WRAP keeps the low 16 bits and reads them as two's complement (R152). -/
theorem narrow_wrap_eq_toInt (z : Int) : narrow .wrap z = (BitVec.ofInt 16 z).toInt := by
  rw [BitVec.toInt_ofInt, Int.bmod_def, narrow]
  simp only [Nat.reducePow, Nat.cast_ofNat]
  split <;> split <;> omega

/-- SAT clamps to the `int16` range (R152). -/
theorem narrow_sat_eq_clamp (z : Int) : narrow .sat z = max (-32768) (min z 32767) := by
  simp only [narrow]
  split
  · omega
  · split <;> omega

/-- Either policy returns an `int16` (R152). -/
theorem narrow_mem_int16 (p : QPolicy) (z : Int) : -32768 ≤ narrow p z ∧ narrow p z ≤ 32767 := by
  cases p with
  | wrap =>
    rw [narrow_wrap_eq_toInt]
    exact ⟨BitVec.le_toInt _, Int.le_of_lt_add_one BitVec.toInt_lt⟩
  | sat =>
    rw [narrow_sat_eq_clamp]
    omega

/-- Either policy keeps an integer that fits (R152). -/
theorem narrow_of_fits (p : QPolicy) {z : Int} (low : -32768 ≤ z) (high : z ≤ 32767) : narrow p z = z := by
  cases p with
  | wrap =>
    rw [narrow_wrap_eq_toInt]
    exact BitVec.toInt_ofInt_eq_self (by decide) low (Int.lt_add_one_of_le high)
  | sat =>
    rw [narrow_sat_eq_clamp, min_eq_left high, max_eq_right low]

/-- Settles O43: the bits of the wrapped integer are those of the 16-bit word that it is read from. -/
theorem quantizerPolicies : Obligations.QuantizerPolicies := by
  refine ⟨fun z => ⟨?_, narrow_sat_eq_clamp z, fun p => narrow_mem_int16 p z, fun p => narrow_of_fits p⟩,
    fun F N u ds => rfl⟩
  rw [narrow_wrap_eq_toInt, BitVec.ofInt_toInt]

/-! ### The exact reals -/

section Rounding

variable {unset : Nat → ℝ}

/-- A real is rounded to the positive integer whose interval, closed below, it lies in (R10). -/
theorem numReal_roundInt_of_pos {a : ℝ} {z : Int} (positive : 1 ≤ z) (low : z - 1 / 2 ≤ a) (high : a < z + 1 / 2) :
    (numReal unset).roundInt a = z := by
  have one_le : (1 : ℝ) ≤ z := mod_cast positive
  have above : 0 < a := by linarith
  have magnitude : ⌊|a| + 1 / 2⌋ = z := by
    rw [abs_of_pos above, Int.floor_eq_iff]
    exact ⟨by linarith, by linarith⟩
  calc (numReal unset).roundInt a
      = (SignType.sign a : Int) * ⌊|a| + 1 / 2⌋ := rfl
    _ = z := by rw [sign_pos above, magnitude, SignType.coe_one, one_mul]

/-- Rounding is odd: ties go away from zero on both sides (R10). -/
theorem numReal_roundInt_neg (a : ℝ) : (numReal unset).roundInt (-a) = -(numReal unset).roundInt a := by
  simp [numReal, Left.sign_neg]

/-- A real is rounded to the negative integer whose interval, closed above, it lies in (R10). -/
theorem numReal_roundInt_of_neg {a : ℝ} {z : Int} (negative : z ≤ -1) (low : z - 1 / 2 < a) (high : a ≤ z + 1 / 2) :
    (numReal unset).roundInt a = z := by
  have opposite : (numReal unset).roundInt (-a) = -z :=
    numReal_roundInt_of_pos (by omega) (by push_cast; linarith) (by push_cast; linarith)
  rw [numReal_roundInt_neg] at opposite
  exact neg_inj.1 opposite

theorem QntUnit.quant_real (u : QntUnit) (d : ℝ) :
    u.quant (numReal unset) d = narrow u.qpol ((numReal unset).roundInt (d * 32767)) := by
  have factor : (numReal unset).ofInt 32767 = 32767 := Int.cast_ofNat 32767
  rw [QntUnit.quant, factor]; rfl

/-- A value whose product rounds to a positive integer (R152). -/
theorem QntUnit.quant_of_pos (u : QntUnit) {d : ℝ} (z : Int) (positive : 1 ≤ z) (low : z - 1 / 2 ≤ d * 32767)
    (high : d * 32767 < z + 1 / 2) : u.quant (numReal unset) d = narrow u.qpol z := by
  rw [u.quant_real, numReal_roundInt_of_pos positive low high]

/-- A value whose product rounds to a negative integer (R152). -/
theorem QntUnit.quant_of_neg (u : QntUnit) {d : ℝ} (z : Int) (negative : z ≤ -1) (low : z - 1 / 2 < d * 32767)
    (high : d * 32767 ≤ z + 1 / 2) : u.quant (numReal unset) d = narrow u.qpol z := by
  rw [u.quant_real, numReal_roundInt_of_neg negative low high]

/-! ### The rows that both policies narrow alike, and those that overflow (R153) -/

/-- The rows whose rounded integer is an `int16`. -/
theorem QntUnit.quant_rows_in_range (u : QntUnit) :
    let q := u.quant (numReal unset)
    q 0 = 0 ∧ q 1 = 32767 ∧ q (-1) = -32767 ∧ q (0.5 / 32767) = 1 ∧ q (-0.5 / 32767) = -1 ∧ q (2.5 / 32767) = 3 ∧
      q (Real.pi / 4) = 25735 := by
  have low := Real.pi_gt_d6
  have high := Real.pi_lt_d6
  have fits {z : Int} (int16 : -32768 ≤ z ∧ z ≤ 32767) : narrow u.qpol z = z := narrow_of_fits u.qpol int16.1 int16.2
  refine ⟨?_, ?_, ?_, ?_, ?_, ?_, ?_⟩
  · have zero : (numReal unset).ofInt 0 = 0 := Int.cast_zero
    exact zero ▸ u.quant_zero (numReal_laws unset)
  · exact (u.quant_of_pos 32767 (by decide) (by norm_num) (by norm_num)).trans (fits (by decide))
  · exact (u.quant_of_neg (-32767) (by decide) (by norm_num) (by norm_num)).trans (fits (by decide))
  · exact (u.quant_of_pos 1 (by decide) (by norm_num) (by norm_num)).trans (fits (by decide))
  · exact (u.quant_of_neg (-1) (by decide) (by norm_num) (by norm_num)).trans (fits (by decide))
  · exact (u.quant_of_pos 3 (by decide) (by norm_num) (by norm_num)).trans (fits (by decide))
  · exact (u.quant_of_pos 25735 (by decide) (by norm_num; linarith) (by norm_num; linarith)).trans (fits (by decide))

/-- The rounded integers of the rows that overflow. -/
theorem QntUnit.quant_rows_overflowing (u : QntUnit) :
    let q := u.quant (numReal unset)
    q (32767.5 / 32767) = narrow u.qpol 32768 ∧ q (-32768.5 / 32767) = narrow u.qpol (-32769) ∧
      q (Real.pi / 2) = narrow u.qpol 51470 ∧ q (-3 * Real.pi / 8) = narrow u.qpol (-38603) ∧
      q Real.pi = narrow u.qpol 102941 := by
  have low := Real.pi_gt_d6
  have high := Real.pi_lt_d6
  refine ⟨?_, ?_, ?_, ?_, ?_⟩
  · exact u.quant_of_pos 32768 (by decide) (by norm_num) (by norm_num)
  · exact u.quant_of_neg (-32769) (by decide) (by norm_num) (by norm_num)
  · exact u.quant_of_pos 51470 (by decide) (by norm_num; linarith) (by norm_num; linarith)
  · exact u.quant_of_neg (-38603) (by decide) (by norm_num; linarith) (by norm_num; linarith)
  · exact u.quant_of_pos 102941 (by decide) (by norm_num; linarith) (by norm_num; linarith)

end Rounding

/-- Settles O55: the rows in range hold under both policies; of the others each policy narrows the same rounded integer. -/
theorem quantizerTableInTheExactReals : Obligations.QuantizerTableInTheExactReals := by
  intro unset q
  have overflowing (p) := ({ qpol := p } : QntUnit).quant_rows_overflowing (unset := unset)
  obtain ⟨tieW, negativeTieW, halfW, threeEighthsW, piW⟩ := overflowing .wrap
  obtain ⟨tieS, negativeTieS, halfS, threeEighthsS, piS⟩ := overflowing .sat
  exact ⟨fun p => ({ qpol := p } : QntUnit).quant_rows_in_range, tieW, tieS, negativeTieW, negativeTieS, halfW, halfS,
    threeEighthsW, threeEighthsS, piW, piS⟩

end Sys2Proof.Machine
end

section
/-! Proofs: the sequencer's commands (R160 to R165): what each does in which operating state, and the checks of `START`. -/

namespace Sys2Proof.Machine

/-! ### `NOP` and `RST` -/

/-- `NOP` is admitted in every state (R182). -/
theorem exec_nop (s : State) : exec .nop s = .next (s.popCmd 1) :=
  gated_ok (w := Instr.nop.head) (admission_eq_ok.2 (.inl rfl))

/-- `RST` is admitted in every state (R182). -/
theorem exec_rst (s : State) : exec .rst s = .next (s.popCmd 1).commandReset :=
  gated_ok (w := Instr.rst.head) (admission_eq_ok.2 (.inr (.inl rfl)))

/-- Settles O15: taking its word is all that the admitted command does. -/
theorem nopDoesNothing : Obligations.NopDoesNothing := exec_nop

/-- Settles O17: the reset state, with the three streams of the state before put back. -/
theorem rstResetsAllButThreeStreams : Obligations.RstResetsAllButThreeStreams := exec_rst

/-! ### `BATCH` and `STOP` -/

/-- Settles O20: the batch runs, and `Pipeline.run` is the composition of the four units. -/
theorem batchRunsTheFourUnitsInOrder : Obligations.BatchRunsTheFourUnitsInOrder :=
  fun _ _ running fits there => ⟨unpack_take_length there, exec_batch_runs running fits there⟩

/-- A `BATCH` in RUN of more samples than `BATCH_N` (R163). -/
theorem exec_batch_tooLarge {s : State} {n : U24} (running : s.opState = .run) (tooLarge : s.mix.batchN.toNat < n.toNat) :
    exec (.batch n) s = .next (raise .badOperand (Instr.batch n).head s) := by
  have admitted : admission s.opState .batch = .ok := by rw [running]; rfl
  rw [exec, execBatch, gated_ok admitted, if_pos tooLarge]

/-- Settles O22: the size is checked before `IN` is looked at. -/
theorem batchFaultsOrHolds : Obligations.BatchFaultsOrHolds :=
  fun _ _ running => ⟨exec_batch_tooLarge running, exec_batch_holds running⟩

theorem exec_stop_run {s : State} (running : s.opState = .run) : exec .stop s = .next (s.popCmd 1).closeStream := by
  have admitted : admission s.opState .stop = .ok := by rw [running]; rfl
  rw [exec, execStop, gated_ok admitted]

theorem exec_stop_idle {s : State} (idle : s.opState = .idle) :
    exec .stop s = .next (raise .badState Instr.stop.head s) := by
  have refused : admission s.opState .stop = .badState := by rw [idle]; rfl
  rw [exec, execStop, gated_badState refused]

/-- The closing of a stream as one update of the state (R165). -/
theorem State.closeStream_eq (s : State) : s.closeStream =
    { s with inp := [], eos := true, resid := s.resid || !s.inp.isEmpty, opState := .idle } := by
  have rest : s.inp.drop s.inp.length = [] := List.drop_length
  have residue : decide (0 < s.inp.length) = !s.inp.isEmpty := by cases s.inp <;> simp
  rw [← rest, ← residue]
  rfl

/-- Settles O23: the two rows of R182, in RUN with the closing of the stream behind it. -/
theorem stopClosesTheStream : Obligations.StopClosesTheStream := by
  refine fun s => ⟨fun running => ?_, exec_stop_idle⟩
  rw [exec_stop_run running, State.closeStream_eq]
  rfl

/-! ### The checks of `START` -/

section Checks

variable {F : Type} (N : Num F) (nmax : Nat) (u : Pipeline F)

/-- What the checks of `START` for a `ConfigError` ask for (R162). -/
def Pipeline.ConfigValid : Prop :=
  (1 ≤ u.mix.batchN.toNat ∧ u.mix.batchN.toNat ≤ nmax) ∧ 1 ≤ u.dec.decimM.toNat ∧
    N.isFinite u.mix.shiftRate = true ∧ N.isFinite u.mix.phaseInc = true ∧ N.isFinite u.dsc.gain = true

/-- What the checks of `START` for a `FilterError` ask for, if the DEC unit is to be engaged (R162). -/
def Pipeline.FilterValid : Prop :=
  1 ≤ u.dec.ntaps.toNat ∧ u.dec.dph.toNat < u.dec.decimM.toNat ∧
    ∀ k < u.dec.ntaps.toNat, N.isFinite (readWord N u.dec.coef k) = true

variable {N nmax u}

theorem Pipeline.check_configError (invalid : ¬ u.ConfigValid N nmax) : u.check N nmax = some .configError := by
  unfold Pipeline.check
  split
  next => rfl
  next batchFits =>
    split
    next => rfl
    next factorPos =>
      split
      next => rfl
      next allFinite =>
        have batch : 1 ≤ u.mix.batchN.toNat ∧ u.mix.batchN.toNat ≤ nmax := by simp at batchFits; omega
        exact absurd ⟨batch, by omega, by simpa [and_assoc] using allFinite⟩ invalid

theorem Pipeline.check_filterError (valid : u.ConfigValid N nmax) (decimates : 2 ≤ u.dec.decimM.toNat)
    (invalid : ¬ u.FilterValid N) : u.check N nmax = some .filterError := by
  obtain ⟨⟨batchPos, batchFits⟩, factorPos, rate, inc, gain⟩ := valid
  rw [Pipeline.check, if_neg (by simp; omega), if_neg (by omega), if_neg (by simp [rate, inc, gain]), if_pos decimates]
  split
  next => rfl
  next tapsLoaded =>
    split
    next => rfl
    next offsetFits =>
      split
      next => rfl
      next tapsFinite => exact absurd ⟨by omega, by omega, by simpa using tapsFinite⟩ invalid

theorem Pipeline.check_passes (valid : u.ConfigValid N nmax) (filter : 2 ≤ u.dec.decimM.toNat → u.FilterValid N) :
    u.check N nmax = none := by
  obtain ⟨⟨batchPos, batchFits⟩, factorPos, rate, inc, gain⟩ := valid
  rw [Pipeline.check, if_neg (by simp; omega), if_neg (by omega), if_neg (by simp [rate, inc, gain])]
  split
  next decimates =>
    obtain ⟨taps, offset, finite⟩ := filter decimates
    rw [if_neg (by omega), if_neg (by omega), if_neg (by simpa using finite)]
  next => rfl

end Checks

theorem exec_start_fails {s : State} {c : Cause} (idle : s.opState = .idle)
    (fails : s.toPipeline.check Config.num Config.nmax = some c) :
    exec .start s = .next (raise c Instr.start.head s) := by
  have admitted : admission s.opState .start = .ok := by rw [idle]; rfl
  rw [exec, execStart, gated_ok admitted, fails]

theorem exec_start_opens {s : State} (idle : s.opState = .idle)
    (passes : s.toPipeline.check Config.num Config.nmax = none) : exec .start s = .next (s.popCmd 1).openStream := by
  have admitted : admission s.opState .start = .ok := by rw [idle]; rfl
  rw [exec, execStart, gated_ok admitted, passes]

/-- Settles O18: a failing configuration is no valid one, and in a valid one a failing filter is no valid one. -/
theorem startFaultsByTheFirstFailingCheck : Obligations.StartFaultsByTheFirstFailingCheck := by
  intro s idle fault
  have configError (invalid : ¬ s.toPipeline.ConfigValid Config.num Config.nmax) :
      exec .start s = .next (fault .configError) := exec_start_fails idle (Pipeline.check_configError invalid)
  refine ⟨fun batch => configError ?_, fun factor => configError ?_, fun infinite => configError ?_, ?_⟩
  · rintro ⟨⟨batchPos, batchFits⟩, -⟩
    rcases batch with zero | tooLarge
    · simp [zero] at batchPos
    · omega
  · rintro ⟨-, factorPos, -⟩
    simp [factor] at factorPos
  · rintro ⟨-, -, rate, inc, gain⟩
    simp [rate, inc, gain] at infinite
  · intro batchNonzero batchFits rate inc gain decimates bad
    have batchPos : 1 ≤ s.mix.batchN.toNat := BitVec.toNat_pos_of_ne_zero batchNonzero
    have valid : s.toPipeline.ConfigValid Config.num Config.nmax :=
      ⟨⟨batchPos, batchFits⟩, by omega, rate, inc, gain⟩
    refine exec_start_fails idle (Pipeline.check_filterError valid decimates ?_)
    rintro ⟨taps, offset, finite⟩
    rcases bad with empty | late | ⟨k, c, used, loaded, infinite⟩
    · simp [empty] at taps
    · omega
    · have read : readWord Config.num s.dec.coef k = c := by rw [readWord, loaded]; rfl
      exact absurd (read ▸ finite k used) (by simp [infinite])

end Sys2Proof.Machine
end

section
/-! Proofs: the units of a new stream, in every numeric domain, and what `START` makes of a valid configuration (R103, R125,
R162). -/

namespace Sys2Proof.Machine

section Units

variable {F : Type} {N : Num F}

/-- Entry `i` of the table build is the phase accumulated over `i` samples (R103). -/
theorem tablePhases_getElem? (inc : F) {n i : Nat} (inside : i < n) (ph : F) :
    (tablePhases N inc n ph)[i]? = some ((fun a => N.wrap (N.add a inc))^[i] ph) := by
  induction n generalizing i ph with
  | zero => exact absurd inside i.not_lt_zero
  | succ n ih =>
    cases i with
    | zero => rfl
    | succ i => exact ih (Nat.lt_of_succ_lt_succ inside) _

/-- With the unit bypassed the table of the stream before stays (R162). -/
theorem MixUnit.construct_bypassed {u : MixUnit F} (bypassed : N.isZero u.shiftRate = true) :
    (u.construct N).dsin = u.dsin ∧ (u.construct N).dcos = u.dcos := by
  simp [MixUnit.construct, bypassed]

theorem MixUnit.construct_engaged {u : MixUnit F} (engaged : N.isZero u.shiftRate = false) :
    (u.construct N).dsin = (tablePhases N u.phaseInc u.batchN.toNat (N.ofInt 0)).map N.sin ∧
      (u.construct N).dcos = (tablePhases N u.phaseInc u.batchN.toNat (N.ofInt 0)).map N.cos := by
  simp [MixUnit.construct, engaged, MixUnit.buildTable]

/-- What `START` makes of the DEC unit, but for `SCALE` and the delay line (R125). -/
theorem DecUnit.construct_frame (u : DecUnit F) : u.construct N = { u with
    decEn := decide (2 ≤ u.decimM.toNat), dcnt := 0, yh := cxZero N
    scale := (u.construct N).scale, dly := (u.construct N).dly } := by
  simp only [DecUnit.construct, DecUnit.init]; split <;> rfl

theorem DecUnit.construct_engaged {u : DecUnit F} (decimates : 2 ≤ u.decimM.toNat) :
    (u.construct N).scale = N.div (N.ofInt 1) (N.ofInt u.decimM.toNat) ∧
      (u.construct N).dly = List.replicate u.ntaps.toNat (cxZero N) ++ u.dly.drop u.ntaps.toNat := by
  simp [DecUnit.construct, DecUnit.init, decimates]

theorem DecUnit.construct_bypassed {u : DecUnit F} (bypassed : u.decimM.toNat < 2) :
    (u.construct N).scale = u.scale ∧ (u.construct N).dly = u.dly := by
  simp [DecUnit.construct, DecUnit.init, Nat.not_le.2 bypassed]

/-- What `START` makes of the units, but for the memories and `SCALE` (R162). -/
theorem Pipeline.construct_frame (u : Pipeline F) : u.construct N = { u with
    mix := { u.mix with
      shiftEn := !N.isZero u.mix.shiftRate, phase := N.ofInt 0
      dsin := (u.mix.construct N).dsin, dcos := (u.mix.construct N).dcos }
    dec := { u.dec with
      decEn := decide (2 ≤ u.dec.decimM.toNat), dcnt := 0, yh := cxZero N
      scale := (u.dec.construct N).scale, dly := (u.dec.construct N).dly }
    dsc := { u.dsc with prev := cxZero N, havePrev := false } } :=
  congrArg₂ (Pipeline.mk · · (u.dsc.construct N) u.qnt) u.mix.construct_frame u.dec.construct_frame

/-- Coefficients that are all finite are finite as the checks of `START` read them (R162). -/
theorem readWord_finite {mem : List F} {n : Nat} (loaded : mem.length = n) (finite : ∀ c ∈ mem, N.isFinite c = true) :
    ∀ k < n, N.isFinite (readWord N mem k) = true := by
  intro k used
  rw [readWord_of_lt N (loaded ▸ used)]
  exact finite _ (List.getElem_mem _)

end Units

/-- Settles O19: the checks pass, and the new stream is described unit by unit. -/
theorem startOpensTheStream : Obligations.StartOpensTheStream := by
  intro s idle batchNonzero batchFits factorNonzero rate inc gain filter
  have positive {n : U24} (nonzero : n ≠ 0) : 1 ≤ n.toNat := BitVec.toNat_pos_of_ne_zero nonzero
  have passes : s.toPipeline.check Config.num Config.nmax = none := by
    refine Pipeline.check_passes ⟨⟨positive batchNonzero, batchFits⟩, positive factorNonzero, rate, inc, gain⟩ ?_
    intro decimates
    obtain ⟨taps, offset, loaded, finite⟩ := filter decimates
    exact ⟨positive taps, offset, readWord_finite loaded finite⟩
  refine ⟨_, exec_start_opens idle passes, ?_, MixUnit.construct_bypassed, fun engaged => ?_, fun decimates => ?_,
    DecUnit.construct_bypassed⟩
  · exact congrArg (fun p : Pipeline Value => { (s.popCmd 1).clearFlags with toPipeline := p, opState := .run })
      s.toPipeline.construct_frame
  · obtain ⟨sines, cosines⟩ := MixUnit.construct_engaged engaged
    have dsin : (s.popCmd 1).openStream.mix.dsin = _ := sines
    have dcos : (s.popCmd 1).openStream.mix.dcos = _ := cosines
    rw [dsin, dcos]
    refine ⟨by simp, by simp, fun i inside => ?_⟩
    simp only [List.getElem?_map, tablePhases_getElem? _ inside, Option.map_some, and_self]
  · obtain ⟨scale, dly⟩ := DecUnit.construct_engaged (N := Config.num) decimates
    have line : (s.popCmd 1).openStream.dec.dly = _ := dly
    rw [line]
    refine ⟨scale, fun k used => ?_, List.drop_left' List.length_replicate⟩
    rw [List.getElem?_append_left (by simpa using used), List.getElem?_replicate_of_lt used]
    rfl

end Sys2Proof.Machine
end

section
/-! Proofs: `RD` in the exact reals (R50, R166), and R166's example. -/

namespace Sys2Proof.Machine

/-- A read of a register of the read map returns it and changes nothing, in any domain (R166). -/
theorem Registers.rd_index {F : Type} (u : Registers F) (r : Reg) : u.rd r.index = (u, some (r.read u)) := by
  rw [Registers.rd, regAt_eq_some.2 rfl]

/-- A read of an index that is not listed returns nothing, and outside ERROR it faults (R182). -/
theorem Registers.rd_unlisted {F : Type} (u : Registers F) {idx : BitVec 8} (unlisted : regAt idx = none) :
    (u.opState ≠ .error → u.rd idx = (u.fault .badOperand (Instr.rd idx).head, none)) ∧
      (u.opState = .error → u.rd idx = (u, none)) := by
  rcases rd_cases idx u with ⟨r, found, -⟩ | ⟨-, dead, dropped⟩ | ⟨-, alive, faults⟩
  · exact nomatch unlisted.symm.trans found
  · exact ⟨fun alive => absurd dead alive, fun _ => dropped⟩
  · exact ⟨fun _ => faults, fun dead => absurd dead alive⟩

/-- Three quarters of a turn are a quarter of a turn back (R10). -/
theorem numReal_wrap_three_quarters (unset : Nat → ℝ) : (numReal unset).wrap (3 * Real.pi / 2) = -Real.pi / 2 := by
  have turn : 3 * Real.pi / 2 = -Real.pi / 2 + 2 * Real.pi := by ring
  have pos := Real.pi_pos
  rw [turn, wrap_periodic, numReal_wrap_eq_toIocMod, toIocMod_eq_self]
  constructor <;> linarith

/-- The phase of a new stream after its first batch, if there is a shift (R105, R162). -/
theorem MixUnit.construct_run_phase {F : Type} {N : Num F} {u : MixUnit F} (engaged : N.isZero u.shiftRate = false)
    {raw : List (Int × Int)} (samples : raw ≠ []) : ((u.construct N).run N raw).1.phase =
      N.wrap (N.add (N.ofInt 0) (N.mul (N.ofInt raw.length) u.phaseInc)) := by
  have on : ((u.construct N).shiftEn && !raw.isEmpty) = true := by
    rw [MixUnit.construct_shiftEn, engaged]; simpa using samples
  rw [MixUnit.run_phase, if_pos on, MixUnit.construct_phase, MixUnit.construct_frame]

/-- Settles O50: the rows of the read map; in the example the phase has advanced by three quarters of a turn. -/
theorem rdAtTheExactReals : Obligations.RdAtTheExactReals := by
  constructor
  · intro u returns
    have row (r : Reg) : returns r.index (r.read u) := u.rd_index r
    exact ⟨⟨row .shiftRate, row .phaseInc, row .phase, row .gain, row .scale, row .prevRe, row .prevIm⟩,
      ⟨row .status, row .cause, row .info, row .batchN, row .decimM, row .ntaps, row .dph, row .dcnt⟩,
      fun idx unlisted => u.rd_unlisted (regAt_eq_none unlisted)⟩
  · intro unset nmax raw capacity three N configured streaming
    have batch : configured.mix.batchN.toNat = 3 := rfl
    have factor : configured.dec.decimM.toNat = 1 := rfl
    have rate : configured.mix.shiftRate = 0.25 := rfl
    have inc : configured.mix.phaseInc = 2 * Real.pi * 0.25 := rfl
    have engaged : N.isZero configured.mix.shiftRate = false := by rw [rate]; norm_num [N, numReal]
    have advanced : N.add (N.ofInt 0) (N.mul (N.ofInt raw.length) configured.mix.phaseInc) = 3 * Real.pi / 2 := by
      rw [three, inc]; simp only [N, numReal]; push_cast; ring
    have phase : streaming.mix.phase = -Real.pi / 2 :=
      calc streaming.mix.phase = N.wrap (N.add (N.ofInt 0) (N.mul (N.ofInt raw.length) configured.mix.phaseInc)) :=
            MixUnit.construct_run_phase engaged (by rintro rfl; cases three)
        _ = N.wrap (3 * Real.pi / 2) := by rw [advanced]
        _ = _ := numReal_wrap_three_quarters unset
    constructor
    · exact Pipeline.check_passes ⟨⟨by omega, by omega⟩, by omega, rfl, rfl, rfl⟩ fun decimates => by omega
    · rw [← phase]; exact streaming.rd_index .phase

end Sys2Proof.Machine
end

section
/-! Proofs: the streaming loop (R167, R215): one block step per command, from the `START` to the `STOP`. -/

namespace Sys2Proof.Machine

theorem runEvents_block {s t : State} (stepped : step s = .next t) (es : List Event) :
    runEvents (.block :: es) s = runEvents es t := by rw [runEvents, stepped]

/-- The first `n` samples of a byte stream that holds them, and the rest (R63). -/
theorem unpack_cut {bytes : List Byte} {batch rest : List (Int × Int)} {n : Nat} (there : 4 * n ≤ bytes.length)
    (samples : unpack bytes = batch ++ rest) (size : batch.length = n) :
    unpack (bytes.take (4 * n)) = batch ∧ unpack (bytes.drop (4 * n)) = rest := by
  have whole : (bytes.take (4 * n)).length % 4 = 0 := by rw [List.length_take]; omega
  have cut : unpack (bytes.take (4 * n)) ++ unpack (bytes.drop (4 * n)) = batch ++ rest := by
    rw [← unpack_append _ _ whole, List.take_append_drop, samples]
  exact List.append_inj cut (by rw [unpack_take_length there, size])

/-- `s` after batches that have used up `IN`: the units and the output are those of `r`, `cmd` is what is left in `CMD`, and
`short` says whether a batch was short (R163). -/
def State.afterBatches (s : State) (r : Pipeline Value × List Int) (cmd : List Word) (short : Bool) : State :=
  { s with toPipeline := r.1, cmd := cmd, inp := [], out := s.out ++ pack r.2, short := short }

/-- A step at a `BATCH` whose samples are there (R163). -/
theorem step_batch {s : State} {n : U24} {rest : List Word} (running : s.opState = .run)
    (cmd : s.cmd = encode (.batch n) ++ rest) (fits : n.toNat ≤ s.mix.batchN.toNat) (there : 4 * n.toNat ≤ s.inp.length) :
    step s = .next ((s.popCmd 1).processBatch n) :=
  (step_of_encode rfl cmd).trans (exec_batch_runs running fits there)

/-- The batches of a stream, one step each (R163, R167). -/
theorem runEvents_batches {s : State} {counts : List U24} {batches : List (List (Int × Int))} {rest : List Word}
    (running : s.opState = .run) (fits : ∀ n ∈ counts, n.toNat ≤ s.mix.batchN.toNat)
    (bytes : s.inp.length = 4 * (counts.map BitVec.toNat).sum)
    (cmd : s.cmd = (counts.map Instr.batch).flatMap encode ++ rest) (samples : unpack s.inp = batches.flatten)
    (sizes : batches.map List.length = counts.map BitVec.toNat) (es : List Event) :
    ∃ short, runEvents (List.replicate counts.length .block ++ es) s =
      runEvents es (s.afterBatches (s.toPipeline.runBatches Config.num batches) rest short) := by
  induction counts generalizing s batches with
  | nil =>
    obtain rfl : batches = [] := List.map_eq_nil_iff.1 sizes
    have inp : s.inp = [] := List.eq_nil_of_length_eq_zero bytes
    have out : s.out ++ pack [] = s.out := List.append_nil _
    refine ⟨s.short, ?_⟩
    rw [State.afterBatches, Pipeline.runBatches, out, ← inp, ← show s.cmd = rest from cmd]
    rfl
  | cons n counts ih =>
    obtain ⟨batch, batches, rfl, size, sizes⟩ := List.map_eq_cons_iff.1 sizes
    rw [List.map_cons, List.sum_cons] at bytes
    rw [List.map_cons, List.flatMap_cons, List.append_assoc] at cmd
    obtain ⟨fitsHead, fitsTail⟩ := List.forall_mem_cons.1 fits
    have there : 4 * n.toNat ≤ s.inp.length := by omega
    obtain ⟨first, later⟩ := unpack_cut there samples size
    have units : ((s.popCmd 1).processBatch n).toPipeline = (s.toPipeline.run Config.num batch).1 := by
      rw [State.processBatch_toPipeline, ← first]; rfl
    have out : ((s.popCmd 1).processBatch n).out = s.out ++ pack (s.toPipeline.run Config.num batch).2 := by
      rw [State.processBatch_out, ← first]; rfl
    have capacity : ((s.popCmd 1).processBatch n).mix.batchN = s.mix.batchN := by rw [units, Pipeline.run_frame]
    have bytesLeft : ((s.popCmd 1).processBatch n).inp.length = 4 * (counts.map BitVec.toNat).sum := by
      rw [State.processBatch_inp, State.popCmd_inp, List.length_drop]; omega
    have cmdLeft : ((s.popCmd 1).processBatch n).cmd = (counts.map Instr.batch).flatMap encode ++ rest := by
      rw [State.processBatch_cmd, State.popCmd_cmd, cmd]; rfl
    obtain ⟨short, ran⟩ := ih (s := (s.popCmd 1).processBatch n) running (capacity ▸ fitsTail) bytesLeft cmdLeft later sizes
    refine ⟨short, ?_⟩
    rw [List.length_cons, List.replicate_succ, List.cons_append, runEvents_block (step_batch running cmd fitsHead there),
      ran, units, State.afterBatches, out, List.append_assoc, ← pack_append]
    rfl

/-- A `STOP` that is the last command finishes the run cleanly, if no fault is recorded (R165, R215). -/
theorem runEvents_stop {s : State} (running : s.opState = .run) (cmd : s.cmd = encode .stop) (noFault : s.cause = .noFault) :
    runEvents [.block] s = .next (s.popCmd 1).closeStream ∧ (s.popCmd 1).closeStream.finishedCleanly := by
  have closes : step s = .next (s.popCmd 1).closeStream :=
    (step_of_encode (rest := []) rfl (by rw [cmd, List.append_nil])).trans (exec_stop_run running)
  have empty : (s.popCmd 1).closeStream.cmd = [] := by rw [State.closeStream_cmd, State.popCmd_cmd, cmd]; rfl
  exact ⟨runEvents_block closes [], ⟨empty, fun held => held.1 empty, by simp⟩, rfl, noFault, rfl⟩

/-- Settles O60: the first step opens the stream, each `BATCH` takes its step, and the last step closes the stream. -/
theorem streamingLoopEndsCleanly : Obligations.StreamingLoopEndsCleanly := by
  intro s counts batches idle noFault passes fits bytes cmd samples sizes r
  have program : s.cmd = encode .start ++ ((counts.map Instr.batch).flatMap encode ++ encode .stop) := by
    simp [cmd, streamProgram]
  have opens : step s = .next (s.popCmd 1).openStream := (step_of_encode rfl program).trans (exec_start_opens idle passes)
  have capacity : (s.popCmd 1).openStream.mix.batchN = s.mix.batchN := s.mix.construct_batchN
  have left : (s.popCmd 1).openStream.cmd = (counts.map Instr.batch).flatMap encode ++ encode .stop := by
    rw [State.openStream_cmd, State.popCmd_cmd, program]; rfl
  obtain ⟨short, ran⟩ :=
    runEvents_batches (s := (s.popCmd 1).openStream) rfl (capacity ▸ fits) bytes left samples sizes [.block]
  obtain ⟨stopped, clean⟩ :=
    runEvents_stop (s := (s.popCmd 1).openStream.afterBatches r (encode .stop) short) rfl rfl noFault
  have events : List.replicate (counts.length + 2) Event.block =
      .block :: (List.replicate counts.length .block ++ [.block]) := by rw [List.replicate_succ, List.replicate_succ']
  exact ⟨_, by rw [events, runEvents_block opens, ran]; exact stopped, clean, rfl, rfl, rfl, rfl, rfl⟩

end Sys2Proof.Machine
end

section
/-! Proofs: the table of R182, and fault entry (R183, R185). -/

namespace Sys2Proof.Machine

/-! ### A command in a state that does not admit it -/

/-- The three ways of R182 lie before the own effect of every command. -/
theorem exec_gated (i : Instr) (s : State) : ∃ body, exec i s = gated i.op i.head s body := by
  cases i with
  | nop | rst | start | batch | stop | rd => exact ⟨_, by rfl⟩
  | setshift | setn | setm | setdph | ldtaps | setgain | setqpol => exact ⟨_, by rfl⟩

theorem exec_dropped {i : Instr} {s : State} (dropped : admission s.opState i.op = .dropped) :
    exec i s = .next (s.popCmd 1) := by
  obtain ⟨body, gate⟩ := exec_gated i s
  rw [gate, gated_dropped dropped]

theorem exec_badState {i : Instr} {s : State} (refused : admission s.opState i.op = .badState) :
    exec i s = .next (raise .badState i.head s) := by
  obtain ⟨body, gate⟩ := exec_gated i s
  rw [gate, gated_badState refused]

/-- Settles O26: the entries of R182 that admit nothing, looked up for each list of commands. -/
theorem inadmissibleCommands : Obligations.InadmissibleCommands := by
  refine fun s i => ⟨fun dead other => exec_dropped ?_, fun idle listed => exec_badState ?_,
    fun running listed => exec_badState ?_⟩
  · exact admission_eq_dropped.2 ⟨dead, by simpa using other⟩
  · rw [idle]
    revert listed; cases i.op <;> decide
  · rw [running]
    revert listed; cases i.op <;> decide

/-! ### Fault entry -/

/-- The only way of a command into ERROR is fault entry with its own head word. -/
theorem effect_faults {s t : State} {i : Instr} (e : Effect s i t) (alive : s.opState ≠ .error)
    (dead : t.opState = .error) : ∃ c, c ≠ .noFault ∧ t = raise c i.head s := by
  cases e with
  | fault c fault => exact ⟨c, fault, rfl⟩
  | rst | start | stop => cases dead
  | dropped | nop | batch | hold | rd | setshift | setn | setm | setdph | ldtaps | setgain | setqpol =>
    exact absurd dead alive

/-- The only way of a step into ERROR is fault entry with the word at the head of `CMD`. -/
theorem step_faults {s t : State} (h : step s = .next t) (alive : s.opState ≠ .error) (dead : t.opState = .error) :
    ∃ c w rest, c ≠ .noFault ∧ s.cmd = w :: rest ∧ t = raise c w s := by
  rcases step_cases h with ⟨-, rfl⟩ | ⟨w, rest, cmd, -, ⟨-, rfl⟩ | ⟨-, rfl⟩⟩ | ⟨i, -, rest, -, cmd, e⟩ |
    ⟨hd, rest, cmd, -, -, ⟨-, rfl⟩ | ⟨c, fault, -, rfl⟩ | ⟨-, rfl⟩⟩
  · exact absurd dead alive
  · exact absurd dead alive
  · exact ⟨.illegalCommand, w, rest, by decide, cmd, rfl⟩
  · obtain ⟨c, fault, entered⟩ := effect_faults e alive dead
    exact ⟨c, i.head, rest, fault, cmd, entered⟩
  · exact absurd dead alive
  · exact ⟨c, hd.word, rest, fault, cmd, rfl⟩
  · exact absurd dead alive

/-- Settles O27: what fault entry writes is all that such a step does. -/
theorem faultEntryIsPrecise : Obligations.FaultEntryIsPrecise := by
  intro s t h alive dead
  obtain ⟨c, w, rest, fault, cmd, rfl⟩ := step_faults h alive dead
  exact ⟨w, rest, cmd, fault, by rw [raise_cause, raise_eq, cmd]; rfl⟩

end Sys2Proof.Machine
end

section
/-! Proofs: the operating state ERROR (R186, R187): what a step does there, by the word at the head of `CMD`, then runs of block
and host. -/

namespace Sys2Proof

/-- The head word of `RD` by its bits (R80, R82). -/
theorem rd_head (idx : BitVec 8) : (Instr.rd idx).head = 0x05000000#32 ||| idx.setWidth 32 := by
  have imm : (idx.setWidth 24).setWidth 32 = idx.setWidth 32 := BitVec.setWidth_setWidth (by decide)
  calc (Instr.rd idx).head = 0x05#8 ++ idx.setWidth 24 := rfl
    _ = 0x05000000#32 ||| (idx.setWidth 24).setWidth 32 := by rw [BitVec.append_def, BitVec.setWidth'_eq]; rfl
    _ = 0x05000000#32 ||| idx.setWidth 32 := by rw [imm]

/-- A head word with all its operand words begins a command that has it as its head word (R87). -/
theorem decode_of_whole {w : Word} {rest : List Word} {h : Head} (head : decodeHead w = some h)
    (whole : h.operandWords ≤ rest.length) : ∃ i rest', decode (w :: rest) = .ok (i, rest') ∧ i.head = w := by
  obtain ⟨rfl, mustBeZero⟩ := decodeHead_eq_some head
  have length : (rest.take h.operandWords).length = h.operandWords := List.length_take_of_le whole
  refine ⟨_, rest.drop h.operandWords, decode_eq_ok_iff.2 ⟨_, h, _, head, length, ?_, rfl⟩,
    head_assemble h _ mustBeZero length⟩
  rw [List.take_append_drop]

end Sys2Proof

namespace Sys2Proof.Machine

/-! ### Word by word -/

section Dropped

variable {s : State} (dead : s.opState = .error)
include dead

/-- The commands that ERROR drops: all but `NOP`, `RST` and the `RD` of a register of the read map (R182). -/
theorem exec_error_drops {i : Instr} (nop : i ≠ .nop) (rst : i ≠ .rst) (rd : ∀ r : Reg, i ≠ .rd r.index) :
    exec i s = .next (s.popCmd 1) := by
  cases i with
  | nop => exact absurd rfl nop
  | rst => exact absurd rfl rst
  | rd idx =>
    have unlisted : regAt idx = none := Option.eq_none_iff_forall_ne_some.2 fun r found =>
      rd r (congrArg Instr.rd (regAt_eq_some.1 found).symm)
    exact exec_rd_unlisted_error unlisted dead
  | start | batch | stop | setshift | setn | setm | setdph | ldtaps | setgain | setqpol => exact exec_dropped (dead ▸ rfl)

/-- The words that ERROR drops, whether they are illegal, lack operand words or begin a whole command (R186). -/
theorem step_error_drops {w : Word} {rest : List Word} (cmd : s.cmd = w :: rest) (nop : w ≠ Instr.nop.head)
    (rst : w ≠ Instr.rst.head) (rd : ∀ r : Reg, w ≠ (Instr.rd r.index).head) : step s = .next (s.popCmd 1) := by
  cases head : decodeHead w with
  | none => rw [step_of_illegal cmd head, illegalWord_error dead]
  | some h =>
    rcases Nat.lt_or_ge rest.length h.operandWords with missing | whole
    · rw [step_of_missing cmd head missing]
      exact awaitOperands_error (configures_of_operandWords (Nat.zero_lt_of_lt missing)) dead
    · obtain ⟨i, rest', decoded, rfl⟩ := decode_of_whole head whole
      rw [step_of_decode (cmd ▸ decoded)]
      exact exec_error_drops dead (mt (congrArg Instr.head) nop) (mt (congrArg Instr.head) rst)
        fun r => mt (congrArg Instr.head) (rd r)

end Dropped

/-- Settles O28: the three words are commands that R182 admits in every state, and every other word is dropped. -/
theorem errorStateExecutesThreeWordsOnly : Obligations.ErrorStateExecutesThreeWordsOnly := by
  intro s w rest dead cmd
  have popped : s.popCmd 1 = { s with cmd := rest } := by rw [State.popCmd, cmd]; rfl
  refine ⟨?_, ?_, ?_, fun rst nop rd => ?_⟩
  · rintro rfl
    rw [step_of_encode (i := .rst) rfl cmd, exec_rst, popped]; rfl
  · rintro rfl
    rw [step_of_encode (i := .nop) rfl cmd, exec_nop, popped]
  · rintro idx r rfl rfl
    rw [← rd_head] at cmd
    rw [step_of_encode (i := .rd r.index) rfl cmd, exec_rd_index, cmd]; rfl
  · rw [← popped]
    exact step_error_drops dead cmd nop rst fun r => rd_head r.index ▸ rd r

/-! ### Runs -/

theorem State.rspPush_nil (s : State) : s.rspPush [] = s := by rw [State.rspPush, List.append_nil]

/-- In ERROR a command other than `RST` only takes words from `CMD` and appends to `RSP` (R186). -/
theorem effect_error {s t : State} {i : Instr} (e : Effect s i t) (dead : s.opState = .error) (rst : i ≠ .rst) :
    ∃ k ws, t = (s.popCmd k).rspPush ws := by
  cases e with
  | fault _ _ alive => exact absurd dead alive
  | rst => exact absurd rfl rst
  | dropped | nop => exact ⟨1, [], (State.rspPush_nil _).symm⟩
  | rd idx r => exact ⟨1, r.words s, rfl⟩
  | batch _ running | hold _ running | stop running => exact nomatch running.symm.trans dead
  | start idle => exact nomatch idle.symm.trans dead
  | setshift _ idle | setn _ idle | setm _ idle | setdph _ idle | ldtaps _ idle | setgain _ idle | setqpol _ idle =>
    exact nomatch idle.symm.trans dead

/-- The same of a step. -/
theorem step_error {s t : State} (h : step s = .next t) (dead : s.opState = .error)
    (rst : Instr.rst.head ∉ s.cmd) : ∃ k ws, t = (s.popCmd k).rspPush ws := by
  rcases step_cases h with ⟨-, rfl⟩ | ⟨w, -, -, -, ⟨-, rfl⟩ | ⟨alive, -⟩⟩ | ⟨i, -, rest, -, cmd, e⟩ |
    ⟨hd, -, -, -, -, ⟨-, rfl⟩ | ⟨c, -, alive, -⟩ | ⟨-, rfl⟩⟩
  · exact ⟨0, [], (State.rspPush_nil _).symm⟩
  · exact ⟨1, [], (State.rspPush_nil _).symm⟩
  · exact absurd dead alive
  · exact effect_error e dead fun reset => rst (by rw [cmd, reset]; exact List.mem_cons_self)
  · exact ⟨1, [], (State.rspPush_nil _).symm⟩
  · exact absurd dead alive
  · exact ⟨0, [], (State.rspPush_nil _).symm⟩

/-- From `s` to `t` the registers and memories are the same, `OUT` has lost and `IN` has gained bytes at most; and no `RST` stands
in the `CMD` of `t`. -/
structure State.InertSince (s t : State) : Prop where
  registers : s.sameRegisters t
  out : ∃ k, t.out = s.out.drop k
  inp : ∃ bs, t.inp = s.inp ++ bs
  noRst : Instr.rst.head ∉ t.cmd

section InertSince

variable {s t u : State}

theorem State.InertSince.refl (noRst : Instr.rst.head ∉ s.cmd) : s.InertSince s :=
  ⟨⟨rfl, rfl, rfl, rfl, rfl, rfl, rfl⟩, ⟨0, rfl⟩, ⟨[], by simp⟩, noRst⟩

theorem State.InertSince.step (h : s.InertSince t) (dead : s.opState = .error) (stepped : step t = .next u) :
    s.InertSince u := by
  obtain ⟨registers, out, inp, noRst⟩ := h
  have ⟨_, opState, _⟩ := registers
  obtain ⟨k, ws, rfl⟩ := step_error stepped (opState.trans dead) noRst
  exact ⟨registers, out, inp, fun rst => noRst (List.mem_of_mem_drop rst)⟩

theorem State.InertSince.hostAct (h : s.InertSince t) {a : HostAct} (powerOn : a ≠ .powerOn)
    (rst : a ≠ .sendWord Instr.rst.head) : s.InertSince (hostAct a t) := by
  obtain ⟨registers, ⟨k, out⟩, ⟨bs, inp⟩, noRst⟩ := h
  cases a with
  | powerOn => exact absurd rfl powerOn
  | takeRsp => exact ⟨registers, ⟨k, out⟩, ⟨bs, inp⟩, noRst⟩
  | takeOut => exact ⟨registers, ⟨k + 1, by rw [Machine.hostAct, out, List.drop_drop]⟩, ⟨bs, inp⟩, noRst⟩
  | pushByte b => exact ⟨registers, ⟨k, out⟩, ⟨bs ++ [b], by rw [Machine.hostAct, inp, List.append_assoc]⟩, noRst⟩
  | sendWord w =>
    have sent : Instr.rst.head ≠ w := fun reset => rst (by rw [reset])
    exact ⟨registers, ⟨k, out⟩, ⟨bs, inp⟩, by simpa [Machine.hostAct, sent] using noRst⟩

end InertSince

/-- What the steps of the block and the host's actions in a run keep, the run keeps. -/
theorem runEvents_keeps_of_mem {P : State → Prop} {es : List Event} (block : ∀ s t, P s → step s = .next t → P t)
    (host : ∀ a s, .host a ∈ es → P s → P (hostAct a s)) {s t : State} (start : P s)
    (run : runEvents es s = .next t) : P t := by
  induction es generalizing s with
  | nil => exact Host.Outcome.next.inj run ▸ start
  | cons event es ih =>
    have later := @ih fun a s acts => host a s (List.mem_cons_of_mem _ acts)
    cases event with
    | host a => exact later (host a s List.mem_cons_self start) run
    | block =>
      rw [runEvents] at run
      split at run
      · exact later (block s _ start ‹_›) run
      · cases run
      · cases run

/-- Settles O29: the steps of the block and the host's actions leave `s` inert. -/
theorem errorLastsUntilReset : Obligations.ErrorLastsUntilReset := by
  intro es s t dead run noPowerOn noRst noRstSent
  have inert : s.InertSince t := by
    refine runEvents_keeps_of_mem (fun _ _ h => h.step dead) (fun a u acts h => ?_)
      (.refl fun rst => noRst _ rst rfl) run
    exact h.hostAct (fun powerOn => noPowerOn (powerOn ▸ acts)) fun rst => noRstSent _ (rst ▸ acts) rfl
  exact ⟨inert.registers, inert.out, inert.inp⟩

end Sys2Proof.Machine
end

section
/-! Proofs: the block never halts (R215): whatever the decoder of R87 answers, and whatever the gate of R182 decides, a next
state follows. -/

namespace Sys2Proof.Machine

/-- Whichever way an operand check decides, a next state follows. -/
theorem ite_next_total (c : Prop) [Decidable c] (s t : State) :
    ∃ u, (if c then .next s else .next t : Result) = .next u := by
  by_cases holds : c
  · exact ⟨s, if_pos holds⟩
  · exact ⟨t, if_neg holds⟩

theorem execStart_total (s : State) : ∃ t, execStart s = .next t := by
  refine gated_next ?_
  cases s.toPipeline.check Config.num Config.nmax with
  | some c => exact ⟨_, rfl⟩
  | none => exact ⟨_, rfl⟩

theorem execBatch_total (n : U24) (s : State) : ∃ t, execBatch n s = .next t := by
  refine gated_next ?_
  by_cases tooLarge : s.mix.batchN.toNat < n.toNat
  · exact ⟨_, if_pos tooLarge⟩
  · simp only [if_neg tooLarge]
    exact ite_next_total _ _ _

/-- Every command answers a next state: where the gate admits it, its body does. -/
theorem exec_total (i : Instr) (s : State) : ∃ t, exec i s = .next t := by
  cases i with
  | start => exact execStart_total s
  | batch n => exact execBatch_total n s
  | ldtaps h =>
    rw [exec]
    refine gated_next ?_
    exact ite_next_total _ _ _
  | nop | rst | stop | rd | setshift | setn | setm | setdph | setgain | setqpol =>
    rw [exec]
    refine gated_next ?_
    exact ⟨_, rfl⟩

theorem illegalWord_total (w : Word) (s : State) : ∃ t, illegalWord w s = .next t := by
  by_cases dead : s.opState = .error
  · exact ⟨_, illegalWord_error dead⟩
  · exact ⟨_, illegalWord_alive dead⟩

theorem awaitOperands_total (h : Head) (s : State) : ∃ t, awaitOperands h s = .next t :=
  gated_next (ite_next_total _ _ _)

/-- Every step answers a next state, one case per answer of the decoder. -/
theorem step_total (s : State) : ∃ t, step s = .next t := by
  rw [step, serve]
  split
  next i _ _ => exact exec_total i s
  next => exact ⟨s, rfl⟩
  next w _ => exact illegalWord_total w s
  next h _ => exact awaitOperands_total h s

/-- Settles O8: every command answers a next state, and with it every answer of the decoder. -/
theorem theBlockNeverHalts : Obligations.TheBlockNeverHalts := ⟨step_total, exec_total⟩

/-- Every run comes to a state. -/
theorem runEvents_total (es : List Event) (s : State) : ∃ t, runEvents es s = .next t := by
  induction es generalizing s with
  | nil => exact ⟨s, rfl⟩
  | cons event es ih =>
    cases event with
    | host a => exact ih (hostAct a s)
    | block =>
      obtain ⟨t, stepped⟩ := step_total s
      rw [runEvents_block stepped]
      exact ih t

end Sys2Proof.Machine
end

section
/-! Proofs: the ends of a run (R215), over events in which the host appends nothing: what a block that waits leaves as it is, a
finished run, and the `STOP` that finishes one. -/

namespace Sys2Proof.Machine

/-! ### A block that waits -/

/-- From `s` to `t` nothing has changed but what the host has removed from `OUT` and `RSP`. -/
structure State.QuietSince (s t : State) : Prop where
  registers : t.toRegisters = s.toRegisters
  cmd : t.cmd = s.cmd
  inp : t.inp = s.inp
  out : ∃ k, t.out = s.out.drop k
  rsp : ∃ k, t.rsp = s.rsp.drop k

section QuietSince

variable {s t u : State}

theorem State.QuietSince.refl : s.QuietSince s := ⟨rfl, rfl, rfl, ⟨0, rfl⟩, ⟨0, rfl⟩⟩

theorem State.QuietSince.sameRegisters (quiet : s.QuietSince t) : s.sameRegisters t := by
  rw [State.sameRegisters, quiet.registers]
  exact ⟨rfl, rfl, rfl, rfl, rfl, rfl, rfl⟩

/-- Whether a command holds does not depend on `OUT` and `RSP` (R73). -/
theorem State.QuietSince.holds (quiet : s.QuietSince t) (held : s.holds) : t.holds := by
  have awaited := (whatHolds s).1 held
  rw [← quiet.registers, ← quiet.cmd, ← quiet.inp] at awaited
  exact (whatHolds t).2 awaited

/-- A block that waits, with `CMD` empty or at a command that holds, goes on waiting. -/
theorem State.QuietSince.waits (quiet : s.QuietSince t) (waits : step s = .next s) : step t = .next t := by
  by_cases empty : s.cmd = []
  · exact step_of_cmd_nil (quiet.cmd.trans empty)
  · exact (quiet.holds ⟨empty, waits⟩).2

theorem State.QuietSince.step (quiet : s.QuietSince t) (waits : step s = .next s) (stepped : step t = .next u) :
    s.QuietSince u := by
  obtain rfl : t = u := Host.Outcome.next.inj ((quiet.waits waits).symm.trans stepped)
  exact quiet

theorem State.QuietSince.hostAct (quiet : s.QuietSince t) {a : HostAct} (silent : (Event.host a).appends = false)
    (powerOn : a ≠ .powerOn) : s.QuietSince (hostAct a t) := by
  obtain ⟨registers, cmd, inp, ⟨k, out⟩, ⟨l, rsp⟩⟩ := quiet
  cases a with
  | sendWord | pushByte => cases silent
  | powerOn => exact absurd rfl powerOn
  | takeOut => exact ⟨registers, cmd, inp, ⟨k + 1, by rw [Machine.hostAct, out, List.drop_drop]⟩, ⟨l, rsp⟩⟩
  | takeRsp => exact ⟨registers, cmd, inp, ⟨k, out⟩, ⟨l + 1, by rw [Machine.hostAct, rsp, List.drop_drop]⟩⟩

/-- A block that waits does so over every run in which the host appends nothing and asserts no power-on reset. -/
theorem runEvents_quiet {es : List Event} (waits : step s = .next s) (silent : appendsNothing es)
    (noPowerOn : .host .powerOn ∉ es) (run : runEvents es s = .next t) : s.QuietSince t :=
  runEvents_keeps_of_mem (fun _ _ quiet => quiet.step waits)
    (fun _ _ acts quiet => quiet.hostAct (silent _ acts) fun powerOn => noPowerOn (powerOn ▸ acts)) .refl run

/-- A command that holds does so for ever (R73). -/
theorem runStuck_of_holds {rest : List Event} (held : s.holds) (silent : appendsNothing rest)
    (noPowerOn : .host .powerOn ∉ rest) : RunStuck s rest := by
  intro es before
  obtain ⟨t, run⟩ := runEvents_total es s
  have quiet : s.QuietSince t :=
    runEvents_quiet held.2 (fun e mem => silent e (before.subset mem)) (fun mem => noPowerOn (before.subset mem)) run
  exact ⟨t, run, quiet.holds held⟩

end QuietSince

/-! ### A finished run -/

theorem State.finished_iff {s : State} : s.finished ↔ s.cmd = [] ∧ s.opState ≠ .run :=
  ⟨fun ⟨empty, _, closed⟩ => ⟨empty, closed⟩, fun ⟨empty, closed⟩ => ⟨empty, fun held => held.1 empty, closed⟩⟩

theorem State.finished.step {s t : State} (done : s.finished) (stepped : step s = .next t) : t.finished := by
  obtain rfl : s = t := Host.Outcome.next.inj ((step_of_cmd_nil done.1).symm.trans stepped)
  exact done

/-- The host's actions that append nothing leave a finished run finished; power-on reset among them. -/
theorem State.finished.hostAct {s : State} (done : s.finished) {a : HostAct}
    (silent : (Event.host a).appends = false) : (hostAct a s).finished := by
  obtain ⟨empty, closed⟩ := State.finished_iff.1 done
  cases a with
  | sendWord | pushByte => cases silent
  | takeOut | takeRsp => exact State.finished_iff.2 ⟨empty, closed⟩
  | powerOn => exact State.finished_iff.2 ⟨State.reset_cmd, by simp⟩

theorem runEvents_finished {s t : State} {es : List Event} (done : s.finished) (silent : appendsNothing es)
    (run : runEvents es s = .next t) : t.finished :=
  runEvents_keeps_of_mem (fun _ _ done => done.step) (fun _ _ acts done => done.hostAct (silent _ acts)) done run

/-- Settles O59: with `CMD` empty and at a command that holds the block waits, so the run is quiet. -/
theorem endedRunsStayAsTheyEnded : Obligations.EndedRunsStayAsTheyEnded := by
  intro s rest silent
  refine ⟨fun t ⟨done, _⟩ run => runEvents_finished done silent run, fun noPowerOn => ⟨?_, ?_, ?_⟩⟩
  · rintro t ⟨⟨empty, -⟩, -⟩ run
    have quiet := runEvents_quiet (step_of_cmd_nil empty) silent noPowerOn run
    exact ⟨quiet.sameRegisters, quiet.inp, quiet.out, quiet.rsp⟩
  · rintro t ⟨empty, running, -⟩ run
    have quiet := runEvents_quiet (step_of_cmd_nil empty) silent noPowerOn run
    have same := quiet.sameRegisters
    have ⟨_, opState, _⟩ := same
    exact ⟨fun ⟨_, _, closed⟩ => closed running, fun ⟨_, _, closed⟩ => closed (opState.trans running),
      quiet.cmd.trans empty, same⟩
  · exact fun held => ⟨runStuck_of_holds held silent noPowerOn, fun ⟨⟨empty, _⟩, _⟩ => held.1 empty⟩

/-! ### The `STOP` that finishes a run -/

/-- A run of the block alone, for one step, is that step. -/
theorem runEvents_singleton_block (s : State) : runEvents [.block] s = step s := by
  rw [runEvents]
  cases step s with
  | next t => rfl
  | fault f => rfl
  | refused r => rfl

/-- Settles O58: in RUN no fault is recorded, so the `STOP` finishes the run cleanly. -/
theorem stopFinishesTheRun : Obligations.StopFinishesTheRun := by
  intro s inv running cmd
  have noFault : s.cause = .noFault := inv.cause_noFault (by simp [running])
  obtain ⟨stopped, clean⟩ := runEvents_stop running cmd noFault
  exact ⟨_, (runEvents_singleton_block s).symm.trans stopped, clean, fun _ silent => ⟨clean, silent⟩⟩

end Sys2Proof.Machine
end

section
/-! Proofs: power-on reset (R200). -/

namespace Sys2Proof.Machine

/-- Settles O16: the values of R47 in the order of the statement, the unit registers and memories being those of
`Pipeline.reset`. -/
theorem powerOnResetValues : Obligations.PowerOnResetValues := by
  refine ⟨hostAct_powerOn, State.reset_opState, State.reset_cause, ?code, State.reset_info, ?units⟩
  case code => rw [State.reset_cause]; rfl
  case units =>
    rw [State.reset_toPipeline]
    exact ⟨rfl, rfl, rfl, rfl, rfl, rfl, rfl, State.reset_short, State.reset_eos, State.reset_resid, rfl, rfl, rfl, rfl, rfl,
      rfl, rfl, rfl, rfl, rfl, rfl, rfl, rfl, State.reset_cmd, State.reset_inp, State.reset_out, State.reset_rsp⟩

end Sys2Proof.Machine
end
